-- ==== Sys2Proof/Word.lean ====
section
/-! DEFINITION. The word types of the chipper core and the nibbles of an instruction word
(spec/00_scope.md R7, R8, R9). -/

namespace Sys2Proof

/-- Four bits: a register index or a count, 0..15 (R9). -/
abbrev Nibble := BitVec 4

/-- Eight bits: a register, a timer, a byte of memory, an immediate `NN` (R7, R9). -/
abbrev Byte := BitVec 8

/-- Twelve bits: the address `NNN` (R9). -/
abbrev Addr12 := BitVec 12

/-- Sixteen bits: pc, I, a stack entry, an instruction word (R7). -/
abbrev Word := BitVec 16

end Sys2Proof
end

