-- ==== Sys2Proof/Syntax.lean ====
section
/-! DEFINITION. The 36 decoded symbols of spec/30_encoding.md R85, one constructor a row of
spec/opcode_table.json, each with the operands its handler assembles (R82). -/

namespace Sys2Proof

/-- A decoded instruction. `x`, `y` are register nibbles, `n` a count, `nn` an immediate byte,
`nnn` a 12-bit address (R9, R82). -/
inductive Instr where
  /-- `Nop`, 0000 (R130) -/
  | nop
  /-- `ExecMachineRoutine`, 0NNN but for 0000, 00E0 and 00EE (R131) -/
  | execMachineRoutine (nnn : Addr12)
  /-- `Clear`, 00E0 (R132) -/
  | clear
  /-- `Return`, 00EE (R133) -/
  | ret
  /-- `JumpNNN`, 1NNN (R134) -/
  | jumpNNN (nnn : Addr12)
  /-- `CallSub`, 2NNN (R135) -/
  | callSub (nnn : Addr12)
  /-- `EqNN`, 3XNN (R141) -/
  | eqNN (x : Nibble) (nn : Byte)
  /-- `NotEqNN`, 4XNN (R142) -/
  | notEqNN (x : Nibble) (nn : Byte)
  /-- `EqY`, 5XY0 (R143). `n` is the word's d3, which is 0 unless the configuration sets
  DECODE_5XYN_ANY (R86): the decoder's operand tuple holds it (R82). -/
  | eqY (x y n : Nibble)
  /-- `StoreNNInX`, 6XNN (R151) -/
  | storeNNInX (x : Nibble) (nn : Byte)
  /-- `AddNNToX`, 7XNN (R152) -/
  | addNNToX (x : Nibble) (nn : Byte)
  /-- `StoreYInX`, 8XY0 (R153) -/
  | storeYInX (x y : Nibble)
  /-- `OrYToX`, 8XY1 (R154) -/
  | orYToX (x y : Nibble)
  /-- `AndYToX`, 8XY2 (R155) -/
  | andYToX (x y : Nibble)
  /-- `XorYToX`, 8XY3 (R156) -/
  | xorYToX (x y : Nibble)
  /-- `AddYToX`, 8XY4 (R157) -/
  | addYToX (x y : Nibble)
  /-- `SubYFromX`, 8XY5 (R158) -/
  | subYFromX (x y : Nibble)
  /-- `StoreYShiftedRightInX`, 8XY6 (R159) -/
  | storeYShiftedRightInX (x y : Nibble)
  /-- `SubXFromY`, 8XY7 (R160) -/
  | subXFromY (x y : Nibble)
  /-- `StoreYShiftedLeftInX`, 8XYE (R161) -/
  | storeYShiftedLeftInX (x y : Nibble)
  /-- `NotEqY`, 9XY0 (R144) -/
  | notEqY (x y : Nibble)
  /-- `StoreMemAddrNNNInRegI`, ANNN (R180) -/
  | storeMemAddrNNNInRegI (nnn : Addr12)
  /-- `JumpToAddrNNNPlusV0`, BNNN (R136) -/
  | jumpToAddrNNNPlusV0 (nnn : Addr12)
  /-- `SetXToRandomNumWithMaskNN`, CXNN (R162) -/
  | setXToRandomNumWithMaskNN (x : Nibble) (nn : Byte)
  /-- `DrawSpriteInXY`, DXYN (R200) -/
  | drawSpriteInXY (x y n : Nibble)
  /-- `SkipIfKeyInXIsPressed`, EX9E (R220) -/
  | skipIfKeyInXIsPressed (x : Nibble)
  /-- `SkipIfKeyInXIsNotPressed`, EXA1 (R221) -/
  | skipIfKeyInXIsNotPressed (x : Nibble)
  /-- `StoreValDTInX`, FX07 (R222) -/
  | storeValDTInX (x : Nibble)
  /-- `WaitForKeyAndStoreInX`, FX0A (R225) -/
  | waitForKeyAndStoreInX (x : Nibble)
  /-- `SetDTToX`, FX15 (R223) -/
  | setDTToX (x : Nibble)
  /-- `SetSTToX`, FX18 (R224) -/
  | setSTToX (x : Nibble)
  /-- `AddXToI`, FX1E (R181) -/
  | addXToI (x : Nibble)
  /-- `SetIToMemAddrOfSpriteInX`, FX29 (R182) -/
  | setIToMemAddrOfSpriteInX (x : Nibble)
  /-- `StoreBCDOfXInI`, FX33 (R183) -/
  | storeBCDOfXInI (x : Nibble)
  /-- `Store0ToXInI`, FX55 (R184); `x` is a count -/
  | store0ToXInI (x : Nibble)
  /-- `Fill0ToXWithValueInAddrI`, FX65 (R185); `x` is a count -/
  | fill0ToXWithValueInAddrI (x : Nibble)
deriving DecidableEq, Repr

end Sys2Proof
end

