-- ==== Sys2Proof/Config.lean ====
section
/-! DEFINITION. What an implementation fixes (spec/00_scope.md R7) and the free values: what the spec
lets come out either way. A free value is opaque, so nothing can be proved of it. -/

namespace Sys2Proof

/-- The 80 bytes of the font, 16 glyphs of 5 rows (spec/20_memory.md R55). -/
abbrev Font := Vector Byte 80

/-- The default FONT: the table of R55. The source gives no bytes (G5), so a claim about a glyph's
pixels names the font it means. -/
def Font.default : Font := #v[
  0xF0, 0x90, 0x90, 0x90, 0xF0,  0x20, 0x60, 0x20, 0x20, 0x70,
  0xF0, 0x10, 0xF0, 0x80, 0xF0,  0xF0, 0x10, 0xF0, 0x10, 0xF0,
  0x90, 0x90, 0xF0, 0x10, 0x10,  0xF0, 0x80, 0xF0, 0x10, 0xF0,
  0xF0, 0x80, 0xF0, 0x90, 0xF0,  0xF0, 0x10, 0x20, 0x40, 0x40,
  0xF0, 0x90, 0xF0, 0x90, 0xF0,  0xF0, 0x90, 0xF0, 0x10, 0xF0,
  0xF0, 0x90, 0xF0, 0x90, 0x90,  0xE0, 0x90, 0xE0, 0x90, 0xE0,
  0xF0, 0x80, 0x80, 0x80, 0xF0,  0xE0, 0x90, 0x90, 0x90, 0xE0,
  0xF0, 0x80, 0xF0, 0x80, 0xF0,  0xF0, 0x80, 0xF0, 0x80, 0x80]

/-- The parameters that fix one core (R7). They are data of the machine's state that no step changes
(log 2), so that a statement about every state is a statement about every configuration. -/
structure Config where
  /-- MEM_SIZE, memory length in bytes -/
  memSize : Nat
  /-- STACK_CAP, return-stack capacity in entries -/
  stackCap : Nat
  /-- DISP_W, framebuffer width in pixels -/
  dispW : Nat
  /-- DISP_H, framebuffer height in pixels -/
  dispH : Nat
  /-- FONT, copied to 0x000..0x04F at construction -/
  font : Font
  /-- DECODE_5XYN_ANY, whether 5XYN with N not 0 decodes as EqY (D11) -/
  decode5xynAny : Bool
deriving DecidableEq, Repr

/-- The spec's default instance (R7, D2 to D5, D11). -/
def Config.default : Config where
  memSize := 0x1000
  stackCap := 16
  dispW := 64
  dispH := 32
  font := Font.default
  decode5xynAny := false

/-- `new` accepts the configuration (spec/70_reset_and_hazards.md R270, D38). -/
def Config.wf (c : Config) : Bool :=
  decide (0x200 ≤ c.memSize) && decide (c.memSize ≤ 0x10000) && decide (1 ≤ c.dispW) && decide (1 ≤ c.dispH)

/-- One move of the host between two instructions, or inside a key wait (R256, R257). -/
inductive HostMove where
  /-- `tick()`, with the number of whole timer periods elapsed since the last decrement (R110, R111) -/
  | tick (k : Nat)
  /-- the input producer's `set(key, pressed)` (R226) -/
  | setKey (key : Nibble) (pressed : Bool)
  /-- the outstanding key wait is abandoned (R227) -/
  | abandonWait
  /-- `load` of a byte stream that could be read (R56, R271) -/
  | load (rom : List Byte)
  /-- `load` whose stream could not be read (R271) -/
  | loadFails
deriving DecidableEq, Repr

/-- FREE VALUE (log 8): the periods elapsed at a tick that the script does not give. The spec admits
every k at every tick (R111, U5). -/
opaque Config.freePeriods : Nat → Nat

/-- FREE VALUE (log 9): the random byte of a draw that the state's list does not give (R162, U6). -/
opaque Config.freeRandom : Nat → Byte

/-- FREE VALUE (log 14): what the host does next during a key wait, when the script does not say:
nothing, or some move (R226, R227, R257). -/
opaque Config.freeWaitMove : Nat → Option HostMove

/-- FREE VALUE (log 15): the bytes that a failed `load` leaves from 0x200 on (R271). -/
opaque Config.freeLoad : Nat → List Byte

/-- FREE VALUE (log 10): `last` after the decode error of a word (R35, U12). -/
opaque Config.freeLast : Nat → Word → Option Instr

end Sys2Proof
end

