-- ==== Sys2Proof/WellFormed.lean ====
section
/-! DEFINITION. Which terms of `Instr` stand for an instruction word (spec/30_encoding.md R86, R87).
Only two rows restrict their operands; every other term is the decoding of exactly one word. -/

namespace Sys2Proof

/-- `ExecMachineRoutine` is 0NNN with NNN none of 000, 0E0, 0EE, which are `Nop`, `Clear` and
`Return` (R87). -/
def machineRoutineAddrOk (nnn : Addr12) : Bool :=
  nnn != 0x000#12 && nnn != 0x0E0#12 && nnn != 0x0EE#12

/-- `EqY` is 5XY0, and 5XYN for every N when DECODE_5XYN_ANY is set (R86, D11). -/
def eqYNibbleOk (decode5xynAny : Bool) (n : Nibble) : Bool :=
  decode5xynAny || n == 0#4

/-- The instruction is the decoding of a word, in a configuration whose DECODE_5XYN_ANY is given. -/
def Instr.wf (decode5xynAny : Bool) : Instr → Bool
  | .nop => true
  | .execMachineRoutine nnn => machineRoutineAddrOk nnn
  | .clear => true
  | .ret => true
  | .jumpNNN _ => true
  | .callSub _ => true
  | .eqNN _ _ => true
  | .notEqNN _ _ => true
  | .eqY _ _ n => eqYNibbleOk decode5xynAny n
  | .storeNNInX _ _ => true
  | .addNNToX _ _ => true
  | .storeYInX _ _ => true
  | .orYToX _ _ => true
  | .andYToX _ _ => true
  | .xorYToX _ _ => true
  | .addYToX _ _ => true
  | .subYFromX _ _ => true
  | .storeYShiftedRightInX _ _ => true
  | .subXFromY _ _ => true
  | .storeYShiftedLeftInX _ _ => true
  | .notEqY _ _ => true
  | .storeMemAddrNNNInRegI _ => true
  | .jumpToAddrNNNPlusV0 _ => true
  | .setXToRandomNumWithMaskNN _ _ => true
  | .drawSpriteInXY _ _ _ => true
  | .skipIfKeyInXIsPressed _ => true
  | .skipIfKeyInXIsNotPressed _ => true
  | .storeValDTInX _ => true
  | .waitForKeyAndStoreInX _ => true
  | .setDTToX _ => true
  | .setSTToX _ => true
  | .addXToI _ => true
  | .setIToMemAddrOfSpriteInX _ => true
  | .storeBCDOfXInI _ => true
  | .store0ToXInI _ => true
  | .fill0ToXWithValueInAddrI _ => true

end Sys2Proof
end

