-- ==== Sys2Proof/Decode.lean ====
section
/-! DEFINITION. The decoder of spec/30_encoding.md R84 on the bytes of an instruction, and after it the
encoder, written from the patterns of R85. -/

namespace Sys2Proof

/-! ### The fields of a word (R8, R9, R81) -/

/-- d0, bits 15..12. -/
def d0 (w : Word) : Nibble := w.extractLsb' 12 4

/-- d1, bits 11..8: the operand X. -/
def d1 (w : Word) : Nibble := w.extractLsb' 8 4

/-- d2, bits 7..4: the operand Y. -/
def d2 (w : Word) : Nibble := w.extractLsb' 4 4

/-- d3, bits 3..0: the operand N. -/
def d3 (w : Word) : Nibble := w.extractLsb' 0 4

/-- `NN = (d2 << 4) | d3`, bits 7..0 (R9, R82). -/
def immNN (w : Word) : Byte := w.extractLsb' 0 8

/-- `NNN = (d1 << 8) | (d2 << 4) | d3`, bits 11..0 (R9, R82). -/
def addrNNN (w : Word) : Addr12 := w.extractLsb' 0 12

/-- The word of two consecutive bytes, big-endian (spec/20_memory.md R52). -/
def wordOfBytes (first second : Byte) : Word := first ++ second

/-- The two bytes of a word as memory holds them, the first at the lower address (R52). -/
def bytesOfWord (w : Word) : List Byte := [w.extractLsb' 8 8, w.extractLsb' 0 8]

/-! ### Decoding (R84, R86, R87) -/

/-- Why bytes are no instruction. -/
inductive DecodeError where
  /-- `DecodeError::UnknownOpcode(word)` (R86) -/
  | unknownOpcode (w : Word)
  /-- fewer than two bytes: an instruction is exactly one 16-bit word (R80) -/
  | truncated
deriving DecidableEq, Repr

/-- Family 0 (R84, R87): three exact words, every other one the legacy machine routine. -/
def decodeFamily0 (w : Word) : Instr :=
  if w = 0x0000#16 then .nop
  else if w = 0x00E0#16 then .clear
  else if w = 0x00EE#16 then .ret
  else .execMachineRoutine (addrNNN w)

/-- Family 8, keyed on d3 (R84, D12). -/
def decodeFamily8 (w : Word) : Option Instr :=
  match (d3 w).toNat with
  | 0x0 => some (.storeYInX (d1 w) (d2 w))
  | 0x1 => some (.orYToX (d1 w) (d2 w))
  | 0x2 => some (.andYToX (d1 w) (d2 w))
  | 0x3 => some (.xorYToX (d1 w) (d2 w))
  | 0x4 => some (.addYToX (d1 w) (d2 w))
  | 0x5 => some (.subYFromX (d1 w) (d2 w))
  | 0x6 => some (.storeYShiftedRightInX (d1 w) (d2 w))
  | 0x7 => some (.subXFromY (d1 w) (d2 w))
  | 0xE => some (.storeYShiftedLeftInX (d1 w) (d2 w))
  | _ => none

/-- Family E, keyed on d2 d3 (R84). -/
def decodeFamilyE (w : Word) : Option Instr :=
  match (immNN w).toNat with
  | 0x9E => some (.skipIfKeyInXIsPressed (d1 w))
  | 0xA1 => some (.skipIfKeyInXIsNotPressed (d1 w))
  | _ => none

/-- Family F, keyed on d2 d3 (R84). -/
def decodeFamilyF (w : Word) : Option Instr :=
  match (immNN w).toNat with
  | 0x07 => some (.storeValDTInX (d1 w))
  | 0x0A => some (.waitForKeyAndStoreInX (d1 w))
  | 0x15 => some (.setDTToX (d1 w))
  | 0x18 => some (.setSTToX (d1 w))
  | 0x1E => some (.addXToI (d1 w))
  | 0x29 => some (.setIToMemAddrOfSpriteInX (d1 w))
  | 0x33 => some (.storeBCDOfXInI (d1 w))
  | 0x55 => some (.store0ToXInI (d1 w))
  | 0x65 => some (.fill0ToXWithValueInAddrI (d1 w))
  | _ => none

/-- The symbol of a word, keyed on d0 (R84): none for the words of R86. -/
def symbolOf (decode5xynAny : Bool) (w : Word) : Option Instr :=
  match (d0 w).toNat with
  | 0x0 => some (decodeFamily0 w)
  | 0x1 => some (.jumpNNN (addrNNN w))
  | 0x2 => some (.callSub (addrNNN w))
  | 0x3 => some (.eqNN (d1 w) (immNN w))
  | 0x4 => some (.notEqNN (d1 w) (immNN w))
  | 0x5 => if eqYNibbleOk decode5xynAny (d3 w) then some (.eqY (d1 w) (d2 w) (d3 w)) else none
  | 0x6 => some (.storeNNInX (d1 w) (immNN w))
  | 0x7 => some (.addNNToX (d1 w) (immNN w))
  | 0x8 => decodeFamily8 w
  | 0x9 => if d3 w = 0#4 then some (.notEqY (d1 w) (d2 w)) else none
  | 0xA => some (.storeMemAddrNNNInRegI (addrNNN w))
  | 0xB => some (.jumpToAddrNNNPlusV0 (addrNNN w))
  | 0xC => some (.setXToRandomNumWithMaskNN (d1 w) (immNN w))
  | 0xD => some (.drawSpriteInXY (d1 w) (d2 w) (d3 w))
  | 0xE => decodeFamilyE w
  | 0xF => decodeFamilyF w
  | _ => none

/-- `decode(word)` of R84: the instruction, or `UnknownOpcode(word)` for the words of R86. -/
def decodeWord (decode5xynAny : Bool) (w : Word) : Except DecodeError Instr :=
  match symbolOf decode5xynAny w with
  | some i => .ok i
  | none => .error (.unknownOpcode w)

/-- Decode the instruction at the front of a list of bytes, with the bytes after it (R80, R52). -/
def decode (decode5xynAny : Bool) : List Byte → Except DecodeError (Instr × List Byte)
  | b0 :: b1 :: rest =>
    match decodeWord decode5xynAny (wordOfBytes b0 b1) with
    | .ok i => .ok (i, rest)
    | .error e => .error e
  | _ => .error .truncated

/-! ### Encoding (R85) -/

/-- The word of four nibbles d0 d1 d2 d3 (R8). -/
def wordOfNibbles (n0 n1 n2 n3 : Nibble) : Word := n0 ++ n1 ++ n2 ++ n3

/-- Format `NNN` (R81). -/
def fmtNNN (op : Nibble) (nnn : Addr12) : Word := op ++ nnn

/-- Format `XNN` (R81). -/
def fmtXNN (op x : Nibble) (nn : Byte) : Word := op ++ x ++ nn

/-- The word of an instruction, by the patterns of R85. -/
def encode : Instr → Word
  | .nop => 0x0000#16
  | .execMachineRoutine nnn => fmtNNN 0x0 nnn
  | .clear => 0x00E0#16
  | .ret => 0x00EE#16
  | .jumpNNN nnn => fmtNNN 0x1 nnn
  | .callSub nnn => fmtNNN 0x2 nnn
  | .eqNN x nn => fmtXNN 0x3 x nn
  | .notEqNN x nn => fmtXNN 0x4 x nn
  | .eqY x y n => wordOfNibbles 0x5 x y n
  | .storeNNInX x nn => fmtXNN 0x6 x nn
  | .addNNToX x nn => fmtXNN 0x7 x nn
  | .storeYInX x y => wordOfNibbles 0x8 x y 0x0
  | .orYToX x y => wordOfNibbles 0x8 x y 0x1
  | .andYToX x y => wordOfNibbles 0x8 x y 0x2
  | .xorYToX x y => wordOfNibbles 0x8 x y 0x3
  | .addYToX x y => wordOfNibbles 0x8 x y 0x4
  | .subYFromX x y => wordOfNibbles 0x8 x y 0x5
  | .storeYShiftedRightInX x y => wordOfNibbles 0x8 x y 0x6
  | .subXFromY x y => wordOfNibbles 0x8 x y 0x7
  | .storeYShiftedLeftInX x y => wordOfNibbles 0x8 x y 0xE
  | .notEqY x y => wordOfNibbles 0x9 x y 0x0
  | .storeMemAddrNNNInRegI nnn => fmtNNN 0xA nnn
  | .jumpToAddrNNNPlusV0 nnn => fmtNNN 0xB nnn
  | .setXToRandomNumWithMaskNN x nn => fmtXNN 0xC x nn
  | .drawSpriteInXY x y n => wordOfNibbles 0xD x y n
  | .skipIfKeyInXIsPressed x => fmtXNN 0xE x 0x9E
  | .skipIfKeyInXIsNotPressed x => fmtXNN 0xE x 0xA1
  | .storeValDTInX x => fmtXNN 0xF x 0x07
  | .waitForKeyAndStoreInX x => fmtXNN 0xF x 0x0A
  | .setDTToX x => fmtXNN 0xF x 0x15
  | .setSTToX x => fmtXNN 0xF x 0x18
  | .addXToI x => fmtXNN 0xF x 0x1E
  | .setIToMemAddrOfSpriteInX x => fmtXNN 0xF x 0x29
  | .storeBCDOfXInI x => fmtXNN 0xF x 0x33
  | .store0ToXInI x => fmtXNN 0xF x 0x55
  | .fill0ToXWithValueInAddrI x => fmtXNN 0xF x 0x65

/-- The operand tuple `[d1, d2, d3]` that the decoder returns for every symbol (R82, R35). -/
def operandTuple (i : Instr) : Nibble × Nibble × Nibble :=
  (d1 (encode i), d2 (encode i), d3 (encode i))

/-- The instruction the decoder reads from a table row's word, laid out in memory order (R52);
DECODE_5XYN_ANY at its default, false. -/
def decodeTableWord (nbits w : Nat) : Option Instr :=
  match decode false (bytesOfWord (BitVec.ofNat 16 (w % 2 ^ nbits))) with
  | .ok (i, _) => some i
  | .error _ => none

end Sys2Proof
end

