-- ==== Sys2Proof/Machine/State.lean ====
section
/-! DEFINITION. The state of one core: the tuple of spec/10_state.md R20, the marks of the registers
that hold no value (R39, spec/60_exceptions.md R242), the boot phase (spec/70_reset_and_hazards.md
R272), the configuration (R7), and the inputs the host has in store (R257). Also the reasons a tick
stops, and the state after reset. -/

namespace Sys2Proof.Machine

/-- A pixel of the framebuffer (R13, R31). -/
inductive Pixel where
  | clear
  | set
deriving DecidableEq, Repr

/-- The framebuffer, row-major: the rows from the top, each from the left (R31). -/
abbrev Framebuffer := List (List Pixel)

/-- Memory: the bytes that differ from what construction left there, in rising order of address
(log 3). -/
abbrev Memory := List Host.Cell

/-- The registers whose read can find no value (R241 row 9). -/
inductive RegName where
  | v (x : Nibble)
  | index
  | dt
deriving DecidableEq, Repr

/-- The fault kinds of R241, in its order, each with the info it records. -/
inductive FaultKind where
  /-- Raised by the tick for a word of R86 (R114). Safe: the spec's own outcome. -/
  | unknownOpcode (w : Word)
  /-- `BoundsError::Register`. Raised by nothing: unreachable from a decoded word (R83). Safe. -/
  | boundsRegister (index : Nat)
  /-- `BoundsError::Memory`. Raised by JumpToAddrNNNPlusV0 (R136), DrawSpriteInXY (R200),
  StoreBCDOfXInI, Store0ToXInI and Fill0ToXWithValueInAddrI (R183 to R185). Safe: the spec's own. -/
  | boundsMemory (addr : Nat)
  /-- `BoundsError::Display`. Raised only by the host's own `get` and `set` of a pixel outside the
  framebuffer (R31), by no instruction (R201). Safe: the spec's own. -/
  | boundsDisplay (x y : Nat)
  /-- `StackError::Full`. Raised by CallSub (R135), with the fetch address. Safe: the spec's own. -/
  | stackFull (p : Word)
  /-- `StackError::Empty`. Raised by Return (R133), with the fetch address. Safe: the spec's own. -/
  | stackEmpty (p : Word)
  /-- Raised by ExecMachineRoutine on every path (R131). Safe: the spec's own. -/
  | notImplemented (nnn : Addr12)
  /-- Raised by the key skips when VX is 16 or more (R220, R221). Safe: the spec's own. -/
  | keyOutOfRange (vx : Byte)
  /-- Raised by any read of a V register, I or DT that holds no value (R242). Safe: the spec's own;
  no state that runs from `State.reset` has such a register (log 1). -/
  | uninitialised (r : RegName)
deriving DecidableEq, Repr

/-- Where the core stands (R34). -/
inductive Status where
  | running
  | waiting
  | ended
  | faulted (kind : FaultKind)
  | abandoned
deriving DecidableEq, Repr

/-- How far booting has come (R271, R272): `load` comes once, before the first tick. -/
inductive BootPhase where
  | awaitingLoad
  | loaded
  | loadFailed
  | ticked
deriving DecidableEq, Repr

/-- Which of V0..VF, I, DT and ST hold no value yet (R39, R242). -/
structure Unwritten where
  v : Vector Bool 16
  index : Bool
  dt : Bool
  st : Bool
deriving DecidableEq, Repr

/-- The state of one core. -/
structure State where
  /-- V0..VF (R21) -/
  v : Vector Byte 16
  /-- the program counter (R23) -/
  pc : Word
  /-- I, the index register (R26) -/
  index : Word
  /-- DT, the delay timer (R27) -/
  dt : Byte
  /-- ST, the sound timer (R28) -/
  st : Byte
  /-- S, the return stack, last pushed first (R29, log 13) -/
  stack : List Word
  /-- M, the memory (R30) -/
  mem : Memory
  /-- the framebuffer (R31) -/
  fb : Framebuffer
  /-- the key levels (R32) -/
  keys : Vector Bool 16
  /-- the key-wait registration: the register X that waits (R33) -/
  wait : Option Nibble
  /-- the run status (R34) -/
  status : Status
  /-- the last-decoded instruction (R35) -/
  last : Option Instr
  /-- the registers that hold no value (R39, R242) -/
  unwritten : Unwritten
  /-- the boot phase (R272) -/
  boot : BootPhase
  /-- the parameters, changed by no step (R7, log 2) -/
  cfg : Config
  /-- the host's coming moves, first first (R257, log 7) -/
  script : List HostMove
  /-- the bytes the random source will give, first first (R162, log 9) -/
  randoms : List Byte
  /-- how many free values have been drawn: the argument of the next one (log 7) -/
  draws : Nat
deriving DecidableEq, Repr

/-- A tick stops with a fault. -/
inductive Fault where
  /-- Raised by `raise`, for every fault kind of R241: the kind, and the state the fault leaves
  (R244 to R246). Safe: the spec's own outcome, and no further tick is admitted. -/
  | raised (kind : FaultKind) (after : State)
deriving DecidableEq, Repr

/-- A host move that the spec admits no such move of. -/
inductive Refusal where
  /-- Raised by `exec` for an instruction without a meaning. Safe. -/
  | notModelled (mnemonic : String)
  /-- Raised by `tick` when status is not Running (R110, U14, U19). Safe: the spec says refuse. -/
  | notRunning (status : Status)
  /-- Raised by `tick` before `load` (R272, a host duty of R257). Safe. -/
  | tickBeforeLoad
  /-- Raised by `tick` after a failed `load` (R271, U13). Safe: the spec says refuse. -/
  | tickAfterFailedLoad
  /-- Raised by `loadRom` and `loadFailure` for a second `load` or one after a tick (R272, U13).
  Safe: the spec says refuse. -/
  | loadNotAdmitted
  /-- Raised by `abandonWait` when no wait is outstanding (R227 gives the move only then, R257). Safe. -/
  | noWaitOutstanding
  /-- Raised by `newCore` for a configuration or display that `new` does not accept (R270, D38, U18).
  Safe: the spec says refuse. -/
  | badConfiguration
deriving DecidableEq, Repr

/-- The machine right after reset: constructed and loaded, before the first tick (R39). pc, S, wait,
status and last are the spec's values; the registers and timers hold 0 (log 1), memory outside the
font reads 0 (log 3), the screen is clear (log 4) and no key is pressed (log 5): DESIGN CHOICE. The
parameters are the spec's defaults (log 2). -/
def State.reset : State where
  v := Vector.replicate 16 0#8
  pc := 0x200#16
  index := 0#16
  dt := 0#8
  st := 0#8
  stack := []
  mem := []
  fb := List.replicate 32 (List.replicate 64 .clear)
  keys := Vector.replicate 16 false
  wait := none
  status := .running
  last := none
  unwritten := { v := Vector.replicate 16 false, index := false, dt := false, st := false }
  boot := .loaded
  cfg := Config.default
  script := []
  randoms := []
  draws := 0

end Sys2Proof.Machine
end

