-- ==== Sys2Proof/Machine/Ops.lean ====
section
/-! DEFINITION. The named operations on registers, memory, stack, framebuffer and keys, and raising a
fault. Everything an instruction reads or writes goes through one of these. -/

namespace Sys2Proof.Machine

/-- What a handler answers. -/
abbrev Out := Host.Outcome State Fault Refusal

/-! ### Faults -/

/-- `raise Fault(kind, info)` (R11, R244 to R246): the tick ends; the state is left as it stands, with
pc past the faulting word, and status becomes Faulted(kind). There is no return from a fault (R247). -/
def raise (kind : FaultKind) (s : State) : Out :=
  .fault (.raised kind { s with status := .faulted kind })

/-- The address p the running instruction was fetched from: a handler sees pc = p + 2 (R113, log 19). -/
def State.fetchAddr (s : State) : Word := s.pc - 2#16

/-! ### Registers (R21, R26 to R28, R242) -/

/-- V[x]. -/
def State.getV (s : State) (x : Nibble) : Byte := s.v[x.toNat]'x.isLt

/-- V[x] holds no value yet (R39, R242). -/
def State.vUnwritten (s : State) (x : Nibble) : Bool := s.unwritten.v[x.toNat]'x.isLt

/-- `V[x] <- b`: the register then holds a value. -/
def State.setV (s : State) (x : Nibble) (b : Byte) : State :=
  { s with
    v := s.v.set x.toNat b x.isLt
    unwritten := { s.unwritten with v := s.unwritten.v.set x.toNat false x.isLt } }

/-- `I <- w` (R26). -/
def State.setIndex (s : State) (w : Word) : State :=
  { s with index := w, unwritten := { s.unwritten with index := false } }

/-- `DT <- b` (R27). -/
def State.setDT (s : State) (b : Byte) : State :=
  { s with dt := b, unwritten := { s.unwritten with dt := false } }

/-- `ST <- b` (R28). -/
def State.setST (s : State) (b : Byte) : State :=
  { s with st := b, unwritten := { s.unwritten with st := false } }

/-- Read V[x] and go on, or fault Uninitialised (R242). -/
def readV (x : Nibble) (s : State) (k : Byte → Out) : Out :=
  if s.vUnwritten x then raise (.uninitialised (.v x)) s else k (s.getV x)

/-- Read I and go on, or fault Uninitialised (R242). -/
def readIndex (s : State) (k : Word → Out) : Out :=
  if s.unwritten.index then raise (.uninitialised .index) s else k s.index

/-- Read DT and go on, or fault Uninitialised (R242). -/
def readDT (s : State) (k : Byte → Out) : Out :=
  if s.unwritten.dt then raise (.uninitialised .dt) s else k s.dt

/-! ### Memory (R50, R54, R57 to R59) -/

/-- What construction leaves at an address, and so what an unlisted address reads as: FONT at
0x000..0x04F (R55), 0x00 elsewhere (a launch parameter, log 3). -/
def launchByte (font : Font) (a : Nat) : Byte :=
  if h : a < 80 then font[a] else 0x00#8

/-- The byte at an address. -/
def Memory.read (font : Font) (m : Memory) (a : Nat) : Byte :=
  match m with
  | [] => launchByte font a
  | (a', b) :: rest => if a' = a then b else Memory.read font rest a

/-- The memory without an entry for the address. -/
def Memory.erase (m : Memory) (a : Nat) : Memory :=
  m.filter fun c => c.1 != a

/-- The memory with an entry put before the first entry of a higher address. -/
def Memory.insert (m : Memory) (a : Nat) (b : Byte) : Memory :=
  match m with
  | [] => [(a, b)]
  | c :: rest => if a < c.1 then (a, b) :: c :: rest else c :: Memory.insert rest a b

/-- Write one byte, keeping the canonical form: an entry that would say what an unlisted address reads
as is left out. -/
def Memory.write (font : Font) (m : Memory) (a : Nat) (b : Byte) : Memory :=
  if b = launchByte font a then m.erase a else (m.erase a).insert a b

/-- The canonical form: addresses strictly rising and inside MEM_SIZE, and no entry equal to what its
address reads as unlisted. -/
def Memory.wf (cfg : Config) (m : Memory) : Bool :=
  decide (m.Pairwise fun c d => c.1 < d.1) &&
    m.all fun c => decide (c.1 < cfg.memSize) && c.2 != launchByte cfg.font c.1

/-- `MemRead(a, 1)`. -/
def State.byteAt (s : State) (a : Nat) : Byte := s.mem.read s.cfg.font a

/-- `MemRead(a, n)`, byte by byte. -/
def State.bytesAt (s : State) (a n : Nat) : List Byte := (List.range n).map fun j => s.byteAt (a + j)

/-- `MemWrite(a, 1, b)`. -/
def State.storeByte (s : State) (a : Nat) (b : Byte) : State :=
  { s with mem := s.mem.write s.cfg.font a b }

/-- `MemWrite(a + j, 1, b_j)` for the bytes of a list, in order. -/
def State.storeBytes (s : State) (a : Nat) : List Byte → State
  | [] => s
  | b :: rest => (s.storeByte a b).storeBytes (a + 1) rest

/-- The bounds rule of an access of `n` bytes, `n` at least 1, at I (R58): `I + n ≤ MEM_SIZE`, or the
fault BoundsError::Memory with I. -/
def inBounds (i : Word) (n : Nat) (s : State) (k : Out) : Out :=
  if i.toNat + n ≤ s.cfg.memSize then k else raise (.boundsMemory i.toNat) s

/-! ### The return stack (R29) -/

/-- `push(S, a)` and go on, or fault StackError::Full with the fetch address (R135). -/
def pushStack (a : Word) (s : State) (k : State → Out) : Out :=
  if s.cfg.stackCap ≤ s.stack.length then raise (.stackFull s.fetchAddr) s
  else k { s with stack := a :: s.stack }

/-- `pop(S)` and go on, or fault StackError::Empty with the fetch address (R133). -/
def popStack (s : State) (k : Word → State → Out) : Out :=
  match s.stack with
  | [] => raise (.stackEmpty s.fetchAddr) s
  | a :: rest => k a { s with stack := rest }

/-! ### The program counter (R23, R140) -/

/-- `pc <- a`. -/
def State.jump (s : State) (a : Word) : State := { s with pc := a }

/-- Skip one instruction width when the condition holds: `pc <- (pc + 2) mod 2^16` (R140). -/
def State.skipIf (s : State) (c : Bool) : State :=
  if c then { s with pc := s.pc + 2#16 } else s

/-! ### The framebuffer (R31) -/

/-- `fb[x, y]`. -/
def Framebuffer.get (fb : Framebuffer) (x y : Nat) : Pixel := (fb[y]?.getD [])[x]?.getD .clear

/-- `fb[x, y] <- p`. -/
def Framebuffer.set (fb : Framebuffer) (x y : Nat) (p : Pixel) : Framebuffer :=
  fb.modify y fun row => row.set x p

/-- The framebuffer of a width and a height with every pixel Clear (R132). -/
def Framebuffer.blank (w h : Nat) : Framebuffer := List.replicate h (List.replicate w .clear)

/-- The framebuffer is a grid of DISP_H rows of DISP_W pixels (R31). -/
def Framebuffer.fits (cfg : Config) (fb : Framebuffer) : Bool :=
  fb.length == cfg.dispH && fb.all fun row => row.length == cfg.dispW

/-! ### The random source (R162) -/

/-- `draw random_byte`: the next byte the source is known to give, or a free value (log 9). -/
def drawRandom (s : State) (k : Byte → State → Out) : Out :=
  match s.randoms with
  | r :: rest => k r { s with randoms := rest }
  | [] => k (Config.freeRandom s.draws) { s with draws := s.draws + 1 }

/-! ### The key levels (R32) -/

/-- `keys[k]`, the level the key source's `get(k)` returns (R226). -/
def State.keyLevel (s : State) (key : Nibble) : Bool := s.keys[key.toNat]'key.isLt

/-- `keys[k] <- pressed` (R226). -/
def State.setKeyLevel (s : State) (key : Nibble) (pressed : Bool) : State :=
  { s with keys := s.keys.set key.toNat pressed key.isLt }

end Sys2Proof.Machine
end

