-- ==== Sys2Proof/Machine/Operands.lean ====
section
/-! DEFINITION. The operand forms: how a handler turns the operand nibbles into values
(spec/30_encoding.md R82, spec/00_scope.md R9, R12). Every register operand is sampled before any
write; reads that find no value fault in the order of R248: VX, VY, I, then V0..V(X-1). -/

namespace Sys2Proof.Machine

/-- Sample VX, then VY (R12, R248). -/
def readXY (x y : Nibble) (s : State) (k : Byte → Byte → Out) : Out :=
  readV x s fun vx => readV y s fun vy => k vx vy

/-- An address NNN as it is written to pc or I: zero-extended, never scaled (R82). -/
def addrOperand (nnn : Addr12) : Word := nnn.setWidth 16

/-- The first of V0..V(n-1) that holds no value (R184, R248). -/
def firstUnwritten (n : Nat) (s : State) : Option Nibble :=
  ((s.unwritten.v.toList.take n).findIdx? id).map (BitVec.ofNat 4)

/-- Sample V0..V(n-1), or fault Uninitialised at the first that holds no value (R184). -/
def readFirstVs (n : Nat) (s : State) (k : List Byte → Out) : Out :=
  match firstUnwritten n s with
  | some x => raise (.uninitialised (.v x)) s
  | none => k (s.v.toList.take n)

/-- `V[j] <- f j` for j in 0..n-1 (R185). -/
def State.fillFirstVs (s : State) (n : Nat) (f : Nat → Byte) : State :=
  { s with
    v := Vector.ofFn fun j : Fin 16 => if j.val < n then f j.val else s.v[j.val]
    unwritten := { s.unwritten with
      v := Vector.ofFn fun j : Fin 16 => if j.val < n then false else s.unwritten.v[j.val] } }

/-- The key VX names, or the fault KeyOutOfRange when VX is 16 or more (R220, R221). -/
def readKeyOperand (x : Nibble) (s : State) (k : Nibble → Out) : Out :=
  readV x s fun vx =>
    if 16 ≤ vx.toNat then raise (.keyOutOfRange vx) s else k (BitVec.ofNat 4 vx.toNat)

end Sys2Proof.Machine
end

