-- ==== Sys2Proof/Machine/Flags.lean ====
section
/-! DEFINITION. The flag computations, and the order of the result and flag writes
(spec/43_alu.md R150, R157 to R161, R163; spec/45_draw.md R203). A flag is exactly 0 or 1. -/

namespace Sys2Proof.Machine

/-- VF is V[15] (R11). -/
def regVF : Nibble := 0xF#4

/-- A flag as VF holds it. -/
def flagByte (b : Bool) : Byte := if b then 1#8 else 0#8

/-- Carry of AddYToX: the sum exceeds 255 (R157). -/
def carryFlag (vx vy : Byte) : Byte := flagByte (decide (255 < vx.toNat + vy.toNat))

/-- No borrow of `a - b`: a is at least b (R158, R160). -/
def noBorrowFlag (a b : Byte) : Byte := flagByte (decide (b.toNat ≤ a.toNat))

/-- The bit a right shift shifts out: bit 0 (R159). -/
def lowBitFlag (v : Byte) : Byte := flagByte (v.getLsbD 0)

/-- The bit a left shift shifts out: bit 7 (R161). -/
def highBitFlag (v : Byte) : Byte := flagByte (v.getLsbD 7)

/-- `V[x] <- result; VF <- flag`, in this order: with x = F the flag stays (R150). -/
def State.setResultThenFlag (s : State) (x : Nibble) (result flag : Byte) : State :=
  (s.setV x result).setV regVF flag

end Sys2Proof.Machine
end

