-- ==== Sys2Proof/Machine/Alu.lean ====
section
/-! DEFINITION. Register and ALU instructions, spec/43_alu.md. All arithmetic is unsigned and mod 256
(R163). -/

namespace Sys2Proof.Machine

/-- `StoreNNInX`: `V[X] <- NN` (R151). -/
def execStoreNNInX (x : Nibble) (nn : Byte) (s : State) : Out := .next (s.setV x nn)

/-- `AddNNToX`: `V[X] <- (vx + NN) mod 256`, no flag (R152). -/
def execAddNNToX (x : Nibble) (nn : Byte) (s : State) : Out :=
  readV x s fun vx => .next (s.setV x (vx + nn))

/-- `StoreYInX`: `V[X] <- vy` (R153). -/
def execStoreYInX (x y : Nibble) (s : State) : Out :=
  readV y s fun vy => .next (s.setV x vy)

/-- `OrYToX`: `V[X] <- vx | vy`, no flag (R154, D14). -/
def execOrYToX (x y : Nibble) (s : State) : Out :=
  readXY x y s fun vx vy => .next (s.setV x (vx ||| vy))

/-- `AndYToX`: `V[X] <- vx & vy`, no flag (R155, D14). -/
def execAndYToX (x y : Nibble) (s : State) : Out :=
  readXY x y s fun vx vy => .next (s.setV x (vx &&& vy))

/-- `XorYToX`: `V[X] <- vx ^ vy`, no flag (R156, D14). -/
def execXorYToX (x y : Nibble) (s : State) : Out :=
  readXY x y s fun vx vy => .next (s.setV x (vx ^^^ vy))

/-- `AddYToX`: the sum mod 256, VF the carry (R157). -/
def execAddYToX (x y : Nibble) (s : State) : Out :=
  readXY x y s fun vx vy => .next (s.setResultThenFlag x (vx + vy) (carryFlag vx vy))

/-- `SubYFromX`: `(vx - vy) mod 256`, VF no borrow (R158). -/
def execSubYFromX (x y : Nibble) (s : State) : Out :=
  readXY x y s fun vx vy => .next (s.setResultThenFlag x (vx - vy) (noBorrowFlag vx vy))

/-- `StoreYShiftedRightInX`: `vy >> 1`, VF bit 0 of vy; VX is not read (R159). -/
def execStoreYShiftedRightInX (x y : Nibble) (s : State) : Out :=
  readV y s fun vy => .next (s.setResultThenFlag x (vy >>> 1) (lowBitFlag vy))

/-- `SubXFromY`: `(vy - vx) mod 256`, VF no borrow (R160). -/
def execSubXFromY (x y : Nibble) (s : State) : Out :=
  readXY x y s fun vx vy => .next (s.setResultThenFlag x (vy - vx) (noBorrowFlag vy vx))

/-- `StoreYShiftedLeftInX`: `(vy << 1) mod 256`, VF bit 7 of vy; VX is not read (R161). -/
def execStoreYShiftedLeftInX (x y : Nibble) (s : State) : Out :=
  readV y s fun vy => .next (s.setResultThenFlag x (vy <<< 1) (highBitFlag vy))

/-- `SetXToRandomNumWithMaskNN`: `V[X] <- r & NN` for a fresh random byte r (R162, D31). -/
def execSetXToRandomNumWithMaskNN (x : Nibble) (nn : Byte) (s : State) : Out :=
  drawRandom s fun r t => .next (t.setV x (r &&& nn))

end Sys2Proof.Machine
end

