-- ==== Sys2Proof/Machine/Control.lean ====
section
/-! DEFINITION. System and control transfer, spec/41_control.md. A handler starts with pc = p + 2,
p being the address the word was fetched from (R113). -/

namespace Sys2Proof.Machine

/-- `Nop` changes nothing (R130, D42). -/
def execNop (s : State) : Out := .next s

/-- `ExecMachineRoutine` raises NotImplemented on every path (R131). -/
def execExecMachineRoutine (nnn : Addr12) (s : State) : Out := raise (.notImplemented nnn) s

/-- `Clear` makes every pixel Clear (R132). -/
def execClear (s : State) : Out := .next { s with fb := Framebuffer.blank s.cfg.dispW s.cfg.dispH }

/-- `Return` pops the stack into pc (R133). The target is not checked (D21). -/
def execReturn (s : State) : Out := popStack s fun a t => .next (t.jump a)

/-- `JumpNNN`: `pc <- NNN`, not checked (R134, D21). -/
def execJumpNNN (nnn : Addr12) (s : State) : Out := .next (s.jump (addrOperand nnn))

/-- `CallSub` pushes pc, which is p + 2, and jumps (R135). -/
def execCallSub (nnn : Addr12) (s : State) : Out :=
  pushStack s.pc s fun t => .next (t.jump (addrOperand nnn))

/-- `JumpToAddrNNNPlusV0`: `pc <- NNN + V0`, checked against MEM_SIZE (R136, D20). -/
def execJumpToAddrNNNPlusV0 (nnn : Addr12) (s : State) : Out :=
  readV 0#4 s fun v0 =>
    if s.cfg.memSize ≤ nnn.toNat + v0.toNat then raise (.boundsMemory (nnn.toNat + v0.toNat)) s
    else .next (s.jump (BitVec.ofNat 16 (nnn.toNat + v0.toNat)))

end Sys2Proof.Machine
end

