-- ==== Sys2Proof/Machine/Draw.lean ====
section
/-! DEFINITION. The sprite-drawing engine, spec/45_draw.md. A draw is the list of the pixels its set
bits land on, in the order of R204, each toggled in turn. -/

namespace Sys2Proof.Machine

/-- Bit of column c of a sprite row: bit 7 is the leftmost pixel (R202). -/
def spriteBit (row : Byte) (c : Nat) : Bool := row.getLsbD (7 - c)

/-- The pixels of one sprite row, from the left, wrapped by the width and by the height (R201). -/
def rowTargets (w h vx vy r : Nat) (row : Byte) : List (Nat × Nat) :=
  ((List.range 8).filter (spriteBit row)).map fun c => ((vx + c) % w, (vy + r) % h)

/-- The pixels of a sprite whose first row is row r, row by row (R204). -/
def spriteTargets (w h vx vy r : Nat) : List Byte → List (Nat × Nat)
  | [] => []
  | row :: rest => rowTargets w h vx vy r row ++ spriteTargets w h vx vy (r + 1) rest

/-- The other pixel value. -/
def Pixel.toggled : Pixel → Pixel
  | .clear => .set
  | .set => .clear

/-- XOR one pixel; a Set pixel is a collision (R200, R203). -/
def togglePixel (acc : Framebuffer × Bool) (p : Nat × Nat) : Framebuffer × Bool :=
  let old := acc.1.get p.1 p.2
  (acc.1.set p.1 p.2 old.toggled, acc.2 || old == .set)

/-- XOR the pixels of a list in turn: the framebuffer after, and whether any collided. -/
def togglePixels (fb : Framebuffer) (targets : List (Nat × Nat)) : Framebuffer × Bool :=
  targets.foldl togglePixel (fb, false)

/-- The draw of the sprite rows at (vx, vy): the framebuffer after, and the collision flag (R200). -/
def drawSprite (s : State) (vx vy : Byte) (rows : List Byte) : Framebuffer × Bool :=
  togglePixels s.fb (spriteTargets s.cfg.dispW s.cfg.dispH vx.toNat vy.toNat 0 rows)

/-- `DrawSpriteInXY` (R200). With N = 0 nothing is read or drawn and VF is 0 (D15); VF is written after
every pixel (R203). -/
def execDrawSpriteInXY (x y n : Nibble) (s : State) : Out :=
  readXY x y s fun vx vy =>
    if n = 0#4 then .next (s.setV regVF (flagByte false))
    else readIndex s fun i =>
      inBounds i n.toNat s
        (let drawn := drawSprite s vx vy (s.bytesAt i.toNat n.toNat)
         .next ({ s with fb := drawn.1 }.setV regVF (flagByte drawn.2)))

end Sys2Proof.Machine
end

