-- ==== Sys2Proof/Machine/IndexMemory.lean ====
section
/-! DEFINITION. The index register and the stores and loads through it, spec/44_index_memory.md. I is
unchanged by an access (D17); bounds are checked before any write (R58). -/

namespace Sys2Proof.Machine

/-- `StoreMemAddrNNNInRegI`: `I <- NNN` (R180). -/
def execStoreMemAddrNNNInRegI (nnn : Addr12) (s : State) : Out :=
  .next (s.setIndex (addrOperand nnn))

/-- `AddXToI`: `I <- (I + vx) mod 2^16`, no flag (R181, D18). -/
def execAddXToI (x : Nibble) (s : State) : Out :=
  readV x s fun vx => readIndex s fun i => .next (s.setIndex (i + vx.setWidth 16))

/-- `SetIToMemAddrOfSpriteInX`: `I <- vx * 5`, VX not masked (R182, D19). -/
def execSetIToMemAddrOfSpriteInX (x : Nibble) (s : State) : Out :=
  readV x s fun vx => .next (s.setIndex (BitVec.ofNat 16 (vx.toNat * 5)))

/-- The three decimal digits of a byte, most significant first (R183). -/
def bcdDigits (v : Byte) : List Byte :=
  [BitVec.ofNat 8 (v.toNat / 100), BitVec.ofNat 8 (v.toNat / 10 % 10), BitVec.ofNat 8 (v.toNat % 10)]

/-- `StoreBCDOfXInI` stores the digits of VX at I, I+1, I+2 (R183). -/
def execStoreBCDOfXInI (x : Nibble) (s : State) : Out :=
  readV x s fun vx => readIndex s fun i =>
    inBounds i 3 s (.next (s.storeBytes i.toNat (bcdDigits vx)))

/-- `Store0ToXInI` stores V0..V(X-1) at I..I+X-1, nothing when X = 0 (R184). -/
def execStore0ToXInI (x : Nibble) (s : State) : Out :=
  if x = 0#4 then .next s
  else readIndex s fun i => readFirstVs x.toNat s fun vs =>
    inBounds i x.toNat s (.next (s.storeBytes i.toNat vs))

/-- `Fill0ToXWithValueInAddrI` loads V0..V(X-1) from I..I+X-1, nothing when X = 0 (R185). -/
def execFill0ToXWithValueInAddrI (x : Nibble) (s : State) : Out :=
  if x = 0#4 then .next s
  else readIndex s fun i =>
    inBounds i x.toNat s (.next (s.fillFirstVs x.toNat fun j => s.byteAt (i.toNat + j)))

end Sys2Proof.Machine
end

