-- ==== Sys2Proof/Machine/KeysTimers.lean ====
section
/-! DEFINITION. Key and timer instructions, spec/46_timers_keys.md. The current tick's timer decay has
already happened when a handler runs. -/

namespace Sys2Proof.Machine

/-- `SkipIfKeyInXIsPressed`: skip if key VX is pressed (R220). -/
def execSkipIfKeyInXIsPressed (x : Nibble) (s : State) : Out :=
  readKeyOperand x s fun key => .next (s.skipIf (s.keyLevel key))

/-- `SkipIfKeyInXIsNotPressed`: skip if key VX is not pressed (R221). -/
def execSkipIfKeyInXIsNotPressed (x : Nibble) (s : State) : Out :=
  readKeyOperand x s fun key => .next (s.skipIf (!s.keyLevel key))

/-- `StoreValDTInX`: `V[X] <- DT` (R222). -/
def execStoreValDTInX (x : Nibble) (s : State) : Out :=
  readDT s fun dt => .next (s.setV x dt)

/-- `WaitForKeyAndStoreInX` registers the wait and suspends the tick (R225). The press that ends it is a
host move (R226): `deliverKey` in Machine/Driver.lean. -/
def execWaitForKeyAndStoreInX (x : Nibble) (s : State) : Out :=
  .next { s with wait := some x, status := .waiting }

/-- `SetDTToX`: `DT <- vx` (R223). -/
def execSetDTToX (x : Nibble) (s : State) : Out :=
  readV x s fun vx => .next (s.setDT vx)

/-- `SetSTToX`: `ST <- vx` (R224). -/
def execSetSTToX (x : Nibble) (s : State) : Out :=
  readV x s fun vx => .next (s.setST vx)

end Sys2Proof.Machine
end

