-- ==== Sys2Proof/Machine/Skip.lean ====
section
/-! DEFINITION. Conditional skips on registers, spec/42_skip.md. -/

namespace Sys2Proof.Machine

/-- `EqNN`: skip if VX = NN (R141). -/
def execEqNN (x : Nibble) (nn : Byte) (s : State) : Out :=
  readV x s fun vx => .next (s.skipIf (vx == nn))

/-- `NotEqNN`: skip if VX ≠ NN (R142). -/
def execNotEqNN (x : Nibble) (nn : Byte) (s : State) : Out :=
  readV x s fun vx => .next (s.skipIf (vx != nn))

/-- `EqY`: skip if VX = VY (R143); d3 carries no meaning. -/
def execEqY (x y : Nibble) (s : State) : Out :=
  readXY x y s fun vx vy => .next (s.skipIf (vx == vy))

/-- `NotEqY`: skip if VX ≠ VY (R144). -/
def execNotEqY (x y : Nibble) (s : State) : Out :=
  readXY x y s fun vx vy => .next (s.skipIf (vx != vy))

end Sys2Proof.Machine
end

