-- ==== Sys2Proof/Machine/Dispatch.lean ====
section
/-! DEFINITION. Dispatch: exactly one handler a symbol, selected by the symbol alone
(spec/40_cycle.md R116). The state has pc = p + 2. -/

namespace Sys2Proof.Machine

def exec (i : Instr) (s : State) : Host.Outcome State Fault Refusal :=
  match i with
  | .nop => Sys2Proof.Machine.execNop s
  | .execMachineRoutine nnn => Sys2Proof.Machine.execExecMachineRoutine nnn s
  | .clear => Sys2Proof.Machine.execClear s
  | .ret => Sys2Proof.Machine.execReturn s
  | .jumpNNN nnn => Sys2Proof.Machine.execJumpNNN nnn s
  | .callSub nnn => Sys2Proof.Machine.execCallSub nnn s
  | .eqNN x nn => Sys2Proof.Machine.execEqNN x nn s
  | .notEqNN x nn => Sys2Proof.Machine.execNotEqNN x nn s
  | .eqY x y _ => Sys2Proof.Machine.execEqY x y s
  | .storeNNInX x nn => Sys2Proof.Machine.execStoreNNInX x nn s
  | .addNNToX x nn => Sys2Proof.Machine.execAddNNToX x nn s
  | .storeYInX x y => Sys2Proof.Machine.execStoreYInX x y s
  | .orYToX x y => Sys2Proof.Machine.execOrYToX x y s
  | .andYToX x y => Sys2Proof.Machine.execAndYToX x y s
  | .xorYToX x y => Sys2Proof.Machine.execXorYToX x y s
  | .addYToX x y => Sys2Proof.Machine.execAddYToX x y s
  | .subYFromX x y => Sys2Proof.Machine.execSubYFromX x y s
  | .storeYShiftedRightInX x y => Sys2Proof.Machine.execStoreYShiftedRightInX x y s
  | .subXFromY x y => Sys2Proof.Machine.execSubXFromY x y s
  | .storeYShiftedLeftInX x y => Sys2Proof.Machine.execStoreYShiftedLeftInX x y s
  | .notEqY x y => Sys2Proof.Machine.execNotEqY x y s
  | .storeMemAddrNNNInRegI nnn => Sys2Proof.Machine.execStoreMemAddrNNNInRegI nnn s
  | .jumpToAddrNNNPlusV0 nnn => Sys2Proof.Machine.execJumpToAddrNNNPlusV0 nnn s
  | .setXToRandomNumWithMaskNN x nn => Sys2Proof.Machine.execSetXToRandomNumWithMaskNN x nn s
  | .drawSpriteInXY x y n => Sys2Proof.Machine.execDrawSpriteInXY x y n s
  | .skipIfKeyInXIsPressed x => Sys2Proof.Machine.execSkipIfKeyInXIsPressed x s
  | .skipIfKeyInXIsNotPressed x => Sys2Proof.Machine.execSkipIfKeyInXIsNotPressed x s
  | .storeValDTInX x => Sys2Proof.Machine.execStoreValDTInX x s
  | .waitForKeyAndStoreInX x => Sys2Proof.Machine.execWaitForKeyAndStoreInX x s
  | .setDTToX x => Sys2Proof.Machine.execSetDTToX x s
  | .setSTToX x => Sys2Proof.Machine.execSetSTToX x s
  | .addXToI x => Sys2Proof.Machine.execAddXToI x s
  | .setIToMemAddrOfSpriteInX x => Sys2Proof.Machine.execSetIToMemAddrOfSpriteInX x s
  | .storeBCDOfXInI x => Sys2Proof.Machine.execStoreBCDOfXInI x s
  | .store0ToXInI x => Sys2Proof.Machine.execStore0ToXInI x s
  | .fill0ToXWithValueInAddrI x => Sys2Proof.Machine.execFill0ToXWithValueInAddrI x s

end Sys2Proof.Machine
end

