-- ==== Sys2Proof/Machine/Driver.lean ====
section
/-! DEFINITION. One tick (spec/40_cycle.md R110 to R117), the host's operations on the core
(spec/60_exceptions.md R256, R257; spec/70_reset_and_hazards.md R270 to R272), and how the driver
takes the next of its moves. -/

namespace Sys2Proof.Machine

/-! ### Timer decay (R111) -/

/-- A timer after k elapsed periods: `max(0, T - k)`. -/
def decayTimer (t : Byte) (k : Nat) : Byte :=
  if t = 0#8 then 0#8 else BitVec.ofNat 8 (t.toNat - k)

/-- Decay both timers; a timer that holds no value stays so (R111, R242). -/
def State.decay (s : State) (k : Nat) : State :=
  { s with
    dt := if s.unwritten.dt then s.dt else decayTimer s.dt k
    st := if s.unwritten.st then s.st else decayTimer s.st k }

/-! ### Fetch, decode, dispatch (R112 to R116) -/

/-- The word the next fetch reads: the bytes at pc and pc + 1, big-endian (R52, R112). -/
def State.fetchWord (s : State) : Word :=
  wordOfBytes (s.byteAt s.pc.toNat) (s.byteAt (s.pc.toNat + 1))

/-- pc + 2 reaches the end of memory: the run ends at this fetch (R112). -/
def State.atEnd (s : State) : Bool := decide (s.cfg.memSize ≤ s.pc.toNat + 2)

/-- The state a handler starts from: pc advanced, `last` recorded (R113, R115). -/
def State.fetched (s : State) (last : Option Instr) : State :=
  { s with pc := s.pc + 2#16, last := last }

/-- Fetch, advance pc, decode and dispatch (R112 to R116). After UnknownOpcode `last` is a free value
(R35, log 10). -/
def runInstruction (s : State) : Out :=
  match decode s.cfg.decode5xynAny [s.byteAt s.pc.toNat, s.byteAt (s.pc.toNat + 1)] with
  | .ok (i, _) => exec i (s.fetched (some i))
  | .error _ =>
    raise (.unknownOpcode s.fetchWord) (s.fetched (Config.freeLast s.draws s.fetchWord))

/-- Why no tick is admitted, if none is (R110, R271, R272, U13, U14). -/
def State.tickRefusal (s : State) : Option Refusal :=
  match s.boot with
  | .awaitingLoad => some .tickBeforeLoad
  | .loadFailed => some .tickAfterFailedLoad
  | .loaded => if s.status = .running then none else some (.notRunning s.status)
  | .ticked => if s.status = .running then none else some (.notRunning s.status)

/-- A tick has started: `load` is over (R272), and both timers have decayed (R111). -/
def State.started (s : State) (k : Nat) : State := { s.decay k with boot := .ticked }

/-- `tick(k)` (R110): decay, then EndOfProgram (R112, R243) or one instruction. -/
def tick (k : Nat) (s : State) : Out :=
  match s.tickRefusal with
  | some r => .refused r
  | none =>
    if s.atEnd then .next { s.started k with status := .ended } else runInstruction (s.started k)

/-! ### The key source (R226, R227) -/

/-- `set(key, pressed)`: the level is stored, and a press resolves an outstanding wait, whose tick then
returns Ok (R225, R226). -/
def deliverKey (key : Nibble) (pressed : Bool) (s : State) : State :=
  match pressed, s.wait with
  | true, some x =>
    { (s.setKeyLevel key true).setV x (key.setWidth 8) with wait := none, status := .running }
  | true, none => s.setKeyLevel key true
  | false, _ => s.setKeyLevel key false

/-- The host gives up the outstanding wait (R227). -/
def State.abandoned (s : State) : State := { s with wait := none, status := .abandoned }

/-- The move `abandonWait`, which needs an outstanding wait (R227, R257). -/
def abandonWait (s : State) : Out :=
  match s.wait with
  | some _ => .next s.abandoned
  | none => .refused .noWaitOutstanding

/-! ### Construction and load (R270 to R272, R56) -/

/-- The launch bytes of `new`: those of the image outside the font and inside memory (R39, D7). -/
def launchMemory (cfg : Config) (image : List Host.Cell) : Memory :=
  image.foldl
    (fun m c => if 80 ≤ c.1 ∧ c.1 < cfg.memSize then m.write cfg.font c.1 c.2 else m) []

/-- `new(stack_capacity, memory_size, display, key_source)` (R270): pc = 0x200, FONT in place, every
register and timer without a value (R39), the display, the key levels and the other bytes of memory
as the host supplies them. Any other configuration is a construction error (D38). -/
def newCore (cfg : Config) (display : Framebuffer) (keys : Vector Bool 16) (image : List Host.Cell) : Out :=
  if cfg.wf && display.fits cfg then
    .next { State.reset with
      mem := launchMemory cfg image
      fb := display
      keys := keys
      unwritten := { v := Vector.replicate 16 true, index := true, dt := true, st := true }
      boot := .awaitingLoad
      cfg := cfg }
  else .refused .badConfiguration

/-- The bytes of a ROM that `load` copies: at most MEM_SIZE - 0x200 (R56). -/
def romPart (cfg : Config) (rom : List Byte) : List Byte := rom.take (cfg.memSize - 0x200)

/-- `load` (R271): once, before the first tick. -/
def loadRom (rom : List Byte) (s : State) : Out :=
  match s.boot with
  | .awaitingLoad => .next { s.storeBytes 0x200 (romPart s.cfg rom) with boot := .loaded }
  | .loaded => .refused .loadNotAdmitted
  | .loadFailed => .refused .loadNotAdmitted
  | .ticked => .refused .loadNotAdmitted

/-- `load` whose stream could not be read (R271): the bytes from 0x200 on are free (log 15), and no tick is
admitted afterwards. -/
def loadFailure (s : State) : Out :=
  match s.boot with
  | .awaitingLoad =>
    .next { s.storeBytes 0x200 (romPart s.cfg (Config.freeLoad s.draws)) with
      boot := .loadFailed
      draws := s.draws + 1 }
  | .loaded => .refused .loadNotAdmitted
  | .loadFailed => .refused .loadNotAdmitted
  | .ticked => .refused .loadNotAdmitted

/-! ### The driver -/

/-- One move of the host. -/
def hostMove (m : HostMove) (s : State) : Out :=
  match m with
  | .tick k => tick k s
  | .setKey key pressed => .next (deliverKey key pressed s)
  | .abandonWait => abandonWait s
  | .load rom => loadRom rom s
  | .loadFails => loadFailure s

/-- A key wait when the script says nothing more: the host presses, releases, abandons, or does nothing,
as a free value says (log 14). -/
def unscriptedWait (m : Option HostMove) (s : State) : State :=
  match m with
  | some (.setKey key pressed) => deliverKey key pressed s
  | some .abandonWait => s.abandoned
  | some (.tick _) => s
  | some (.load _) => s
  | some .loadFails => s
  | none => s

/-- The state with one more free value drawn. -/
def State.drawn (s : State) : State := { s with draws := s.draws + 1 }

/-- The driver's next move when the script gives none: it goes on calling `tick`, or the key wait it is
suspended in goes on (log 7, log 8, log 14). -/
def unscripted (s : State) : Out :=
  if s.status = .waiting then .next (unscriptedWait (Config.freeWaitMove s.draws) s.drawn)
  else tick (Config.freePeriods s.draws) s.drawn

/-- The driver takes its next move: the script's first, or the unscripted one. -/
def drive (s : State) : Out :=
  match s.script with
  | m :: rest => hostMove m { s with script := rest }
  | [] => unscripted s

/-! ### What the host reads (R38, R254, R31, R252) -/

/-- What the read-only accessors give: pc, I, V0..VF, the last-decoded instruction with its operand
tuple, the framebuffer. A register that holds no value gives none (log 17). -/
structure View where
  pc : Word
  index : Option Word
  regs : List (Option Byte)
  last : Option (Instr × Nibble × Nibble × Nibble)
  fb : Framebuffer
deriving DecidableEq, Repr

/-- The accessors (R254). -/
def State.view (s : State) : View where
  pc := s.pc
  index := if s.unwritten.index then none else some s.index
  regs := (s.unwritten.v.toList.zip s.v.toList).map fun p => if p.1 then none else some p.2
  last := s.last.map fun i => (i, operandTuple i)
  fb := s.fb

/-- The display's `bounds()` (R31, R252). -/
def displayBounds (s : State) : Nat × Nat := (s.cfg.dispW, s.cfg.dispH)

/-- The display's `get(x, y)`, BoundsError::Display outside (R31, R241 row 4). -/
def displayGet (x y : Nat) (s : State) : Except FaultKind Pixel :=
  if x < s.cfg.dispW ∧ y < s.cfg.dispH then .ok (s.fb.get x y) else .error (.boundsDisplay x y)

/-- The display's `set(x, y, color)`, BoundsError::Display outside (R31, R241 row 4). -/
def displaySet (x y : Nat) (p : Pixel) (s : State) : Except FaultKind Framebuffer :=
  if x < s.cfg.dispW ∧ y < s.cfg.dispH then .ok (s.fb.set x y p) else .error (.boundsDisplay x y)

/-- The display's `clear()` (R31, R252). -/
def displayClear (s : State) : Framebuffer := Framebuffer.blank s.cfg.dispW s.cfg.dispH

/-! ### Placing an instruction where the next step fetches it -/

/-- The state in which the next step is a tick that fetches: nothing changes where it already is. -/
def State.readyToFetch (s : State) : State :=
  { s with
    script := s.script.dropWhile fun m => match m with
      | .tick _ => false
      | .setKey _ _ => true
      | .abandonWait => true
      | .load _ => true
      | .loadFails => true
    status := .running
    wait := none
    boot := match s.boot with
      | .awaitingLoad => .loaded
      | .loadFailed => .loaded
      | .loaded => .loaded
      | .ticked => .ticked
    pc := if s.atEnd then 0x200#16 else s.pc }

/-- The state with a word stored at pc, ready to be fetched (R52). -/
def State.placeWord (s : State) (w : Word) : State :=
  let t := s.readyToFetch
  t.storeBytes t.pc.toNat (bytesOfWord w)

end Sys2Proof.Machine
end

