-- ==== Sys2Proof/Machine/Step.lean ====
section
/-! DEFINITION. One step of the machine: the driver's next move, which is a tick unless the script or a
key wait says otherwise (spec/60_exceptions.md R256, R257). -/

namespace Sys2Proof.Machine

/-- One step. -/
def step (s : State) : Host.Outcome State Fault Refusal := drive s

/-- The state with an instruction's word stored where the next step fetches it. The word's bits above
`nbits` are 0. It stands for the ROM load (log 6). -/
def State.withFetchWord (s : State) (nbits w : Nat) : State :=
  s.placeWord (BitVec.ofNat 16 (w % 2 ^ nbits))

end Sys2Proof.Machine
end

