-- ==== Sys2Proof/Safety.lean ====
section
/-! DEFINITION. The terms claims are made in: the machine's invariant, which registers hold a value, and
what a handler leaves unchanged. -/

namespace Sys2Proof.Safety

open Sys2Proof.Machine

/-- The register holds a value (R242 does not apply to it). -/
abbrev Written (s : State) (x : Nibble) : Prop := s.vUnwritten x = false

/-- Every V register, I and both timers hold a value. -/
abbrev AllWritten (s : State) : Prop :=
  s.unwritten.v = Vector.replicate 16 false ∧ s.unwritten.index = false ∧
    s.unwritten.dt = false ∧ s.unwritten.st = false

/-- The register holds the value b. -/
abbrev Holds (s : State) (x : Nibble) (b : Byte) : Prop := s.getV x = b ∧ Written s x

/-- The invariant of the machine: the configuration is one that `new` accepts (R270), memory is in its
canonical form inside MEM_SIZE (R50), the stack is within its capacity (R29), the framebuffer is the
grid of R31, a wait is outstanding exactly while status is Waiting (R33, R34), nothing but Running
comes before the first tick (R39, R272), and `last` is the decoding of a word (R35). -/
abbrev Inv (s : State) : Prop :=
  s.cfg.wf = true ∧ s.mem.wf s.cfg = true ∧ s.stack.length ≤ s.cfg.stackCap ∧
    s.fb.fits s.cfg = true ∧ (s.wait.isSome = true ↔ s.status = .waiting) ∧
    (s.status = .running ∨ s.boot = .ticked) ∧
    (s.last.all fun i => i.wf s.cfg.decode5xynAny) = true

/-- Every byte of memory reads as before. -/
def SameBytes (s t : State) : Prop := ∀ a, t.byteAt a = s.byteAt a

/-- Only V registers of the list may differ: every other V register, every other piece of state, and
every byte of memory, is as it was. -/
def OnlyV (dst : List Nibble) (s t : State) : Prop :=
  t = { s with v := t.v, unwritten := { s.unwritten with v := t.unwritten.v } } ∧
    (∀ r, r ∉ dst → t.getV r = s.getV r ∧ t.vUnwritten r = s.vUnwritten r) ∧ SameBytes s t

/-- Only pc may differ. -/
def OnlyPc (s t : State) : Prop := t = { s with pc := t.pc } ∧ SameBytes s t

/-- Only pc and the return stack may differ. -/
def OnlyPcStack (s t : State) : Prop := t = { s with pc := t.pc, stack := t.stack } ∧ SameBytes s t

/-- Only I may differ. -/
def OnlyIndex (s t : State) : Prop :=
  t = { s with index := t.index, unwritten := { s.unwritten with index := t.unwritten.index } } ∧
    SameBytes s t

/-- Only bytes of memory from `a` on, `n` of them, may differ. -/
def OnlyBytes (a n : Nat) (s t : State) : Prop :=
  t = { s with mem := t.mem } ∧ ∀ b, b < a ∨ a + n ≤ b → t.byteAt b = s.byteAt b

/-- Only the framebuffer and VF may differ. -/
def OnlyFbVF (s t : State) : Prop :=
  t = { s with fb := t.fb, v := t.v, unwritten := { s.unwritten with v := t.unwritten.v } } ∧
    (∀ r, r ≠ regVF → t.getV r = s.getV r ∧ t.vUnwritten r = s.vUnwritten r) ∧ SameBytes s t

/-- How many set bits of sprite row r, drawn at (vx, vy) on a w x h screen, land on the pixel (px, py):
bit 7 - c lands on ((vx + c) mod w, (vy + r) mod h) (R200 to R202). -/
def rowHits (w h vx vy r : Nat) (row : Byte) (px py : Nat) : Nat :=
  ((List.range 8).filter fun c =>
    row.getLsbD (7 - c) && (vx + c) % w == px && (vy + r) % h == py).length

/-- How many set bits of a sprite of n rows land on the pixel (px, py). -/
def spriteHits (w h vx vy : Nat) (row : Nat → Byte) (n px py : Nat) : Nat :=
  ((List.range n).map fun r => rowHits w h vx vy r (row r) px py).sum

/-- The pixel's value after h XORs (R200). -/
def pixelAfter (p : Pixel) (hits : Nat) : Pixel :=
  match p, hits % 2 with
  | .clear, 1 => .set
  | .set, 1 => .clear
  | q, _ => q

/-- A draw collides at a pixel: a set bit lands on it while it is Set, at once or after an earlier bit
of the same draw has set it (R203, R204). -/
def pixelCollides (p : Pixel) (hits : Nat) : Prop := (p = .set ∧ 1 ≤ hits) ∨ 2 ≤ hits

/-- The instruction's handler raises this fault kind, and the fault leaves the state as it was but for
the run status (R245, R246). -/
abbrev Faults (i : Instr) (s : State) (kind : FaultKind) : Prop :=
  exec i s = .fault (.raised kind { s with status := .faulted kind })

/-- The instructions that store to memory (R57). -/
def storesToMemory : Instr → Bool
  | .storeBCDOfXInI _ => true
  | .store0ToXInI _ => true
  | _ => false

/-- The instructions that write the framebuffer (R31). -/
def writesScreen : Instr → Bool
  | .clear => true
  | .drawSpriteInXY _ _ _ => true
  | _ => false

/-- The instructions that touch the return stack (R29). -/
def touchesStack : Instr → Bool
  | .ret => true
  | .callSub _ => true
  | _ => false

/-- The instructions that write I (R26). -/
def writesIndex : Instr → Bool
  | .storeMemAddrNNNInRegI _ => true
  | .addXToI _ => true
  | .setIToMemAddrOfSpriteInX _ => true
  | _ => false

/-- The skips (R140). -/
def skips : Instr → Bool
  | .eqNN _ _ => true
  | .notEqNN _ _ => true
  | .eqY _ _ _ => true
  | .notEqY _ _ => true
  | .skipIfKeyInXIsPressed _ => true
  | .skipIfKeyInXIsNotPressed _ => true
  | _ => false

/-- The condition of a skip (R141 to R144, R220, R221), in the state its handler starts from; no other
instruction skips. -/
def skipTaken (s : State) : Instr → Bool
  | .eqNN x nn => s.getV x == nn
  | .notEqNN x nn => s.getV x != nn
  | .eqY x y _ => s.getV x == s.getV y
  | .notEqY x y => s.getV x != s.getV y
  | .skipIfKeyInXIsPressed x => s.keyLevel (BitVec.ofNat 4 (s.getV x).toNat)
  | .skipIfKeyInXIsNotPressed x => !s.keyLevel (BitVec.ofNat 4 (s.getV x).toNat)
  | _ => false

/-- The instructions that write pc beyond the fetch's advance, skips aside (R24). -/
def jumps : Instr → Bool
  | .ret => true
  | .jumpNNN _ => true
  | .callSub _ => true
  | .jumpToAddrNNNPlusV0 _ => true
  | _ => false

/-- The V registers an instruction may write (R21, R22, R185): its destination, VF where it sets a flag,
and V0..V(X-1) for the load. -/
def writtenVs : Instr → List Nibble
  | .storeNNInX x _ => [x]
  | .addNNToX x _ => [x]
  | .storeYInX x _ => [x]
  | .orYToX x _ => [x]
  | .andYToX x _ => [x]
  | .xorYToX x _ => [x]
  | .addYToX x _ => [x, regVF]
  | .subYFromX x _ => [x, regVF]
  | .storeYShiftedRightInX x _ => [x, regVF]
  | .subXFromY x _ => [x, regVF]
  | .storeYShiftedLeftInX x _ => [x, regVF]
  | .setXToRandomNumWithMaskNN x _ => [x]
  | .drawSpriteInXY _ _ _ => [regVF]
  | .storeValDTInX x => [x]
  | .fill0ToXWithValueInAddrI x => (List.range x.toNat).map (BitVec.ofNat 4)
  | _ => []

end Sys2Proof.Safety
end

