-- ==== Sys2Proof/Certificates/Slice0/Obligations.lean ====
section
/-! DEFINITION. The statements for the provers, one `def Obligations.<Name> : Prop` each. Throughout,
`exec` starts with pc = p + 2, p being the fetch address (R113). "log n" is notes/assumptions/n.md. -/

open Sys2Proof Sys2Proof.Machine Sys2Proof.Safety

/-! ### Encoding -/

/-- R84, R85: decoding the bytes of an encoded well-formed instruction gives it back, with the bytes
after it; for every instruction, every operand value and both settings of DECODE_5XYN_ANY. -/
def Obligations.DecodeOfEncodeGivesInstruction : Prop :=
  ∀ (any : Bool) (i : Instr) (rest : List Byte), i.wf any = true →
    decode any (bytesOfWord (encode i) ++ rest) = .ok (i, rest)

/-- R84, R85: a word that decodes is the encoding of the instruction it decodes to, which is
well-formed: no two words have one meaning. -/
def Obligations.EncodeOfDecodeGivesWord : Prop :=
  ∀ (any : Bool) (w : Word) (i : Instr), decodeWord any w = .ok i → encode i = w ∧ i.wf any = true

/-- R86: exactly the reserved words of families 5, 8, 9, E and F are UnknownOpcode, and the decoder
gives no other error on two bytes. The outcome for families 5 and 8 is the spec's decision D11, D12. -/
def Obligations.ReservedWordsAreUnknownOpcode : Prop :=
  ∀ (any : Bool) (w : Word),
    (decodeWord any w = .error (.unknownOpcode w) ↔
      (d0 w = 0x9 ∧ d3 w ≠ 0) ∨
      (d0 w = 0xE ∧ immNN w ∉ [0x9E, 0xA1]) ∨
      (d0 w = 0xF ∧ immNN w ∉ [0x07, 0x0A, 0x15, 0x18, 0x1E, 0x29, 0x33, 0x55, 0x65]) ∨
      (d0 w = 0x5 ∧ d3 w ≠ 0 ∧ any = false) ∨
      (d0 w = 0x8 ∧ d3 w ∈ [0x8, 0x9, 0xA, 0xB, 0xC, 0xD, 0xF])) ∧
    ∀ e, decodeWord any w = .error e → e = .unknownOpcode w

/-- R87: family 0 decodes without error, to Nop, Clear and Return for the three exact words and to
ExecMachineRoutine for every other one, whose handler raises NotImplemented on every path; Nop is only
the exact word 0000. -/
def Obligations.MachineRoutineSpaceIsNotImplemented : Prop :=
  (∀ (any : Bool) (w : Word), d0 w = 0 → decodeWord any w = .ok
    (if w = 0x0000 then .nop else if w = 0x00E0 then .clear else if w = 0x00EE then .ret
     else .execMachineRoutine (addrNNN w))) ∧
  (∀ (any : Bool) (w : Word), decodeWord any w = .ok .nop ↔ w = 0x0000) ∧
  ∀ (nnn : Addr12) (s : State), Faults (.execMachineRoutine nnn) s (.notImplemented nnn)

/-- R82: whatever word decodes, the operand tuple is its three low nibbles, NN and NNN are assembled
from them unsigned, and an address is zero-extended, neither scaled nor relative to pc. -/
def Obligations.OperandTupleIsTheLowNibbles : Prop :=
  ∀ (any : Bool) (w : Word),
    (∀ i, decodeWord any w = .ok i → operandTuple i = (d1 w, d2 w, d3 w)) ∧
    (immNN w).toNat = (d2 w).toNat * 16 + (d3 w).toNat ∧
    (addrNNN w).toNat = (d1 w).toNat * 256 + (d2 w).toNat * 16 + (d3 w).toNat ∧
    (addrOperand (addrNNN w)).toNat = (addrNNN w).toNat

/-- Sanity: words written out from R85 and the source's own decode examples (95_test_vectors.md S1 to
S4). -/
def Obligations.WordsOfTheSpecDecodeAsItSays : Prop :=
  decodeWord false 0x00E0 = .ok .clear ∧ decodeWord false 0x1234 = .ok (.jumpNNN 0x234) ∧
    decodeWord false 0x8014 = .ok (.addYToX 0 1) ∧ decodeWord false 0xD125 = .ok (.drawSpriteInXY 1 2 5) ∧
    decodeWord false 0xF165 = .ok (.fill0ToXWithValueInAddrI 1) ∧
    decodeWord false 0x9AB1 = .error (.unknownOpcode 0x9AB1) ∧ decodeWord true 0x5121 = .ok (.eqY 1 2 1)

/-! ### The cycle -/

/-- R110, R113, R115, R116: a step whose next move is an admitted tick that is not at the end of memory,
and whose fetched bytes decode to i, is `exec i` on the state with the move taken, the timers decayed,
pc advanced by 2 and `last` recorded, and in this model with the boot phase past `load` (log 6). That a
host's moves stand in a script, and that an empty script means such a tick with a free k, is the
model's choice (log 7, log 8). -/
def Obligations.StepRunsTheDecodedInstruction : Prop :=
  ∀ (s : State) (i : Instr), s.tickRefusal = none → s.atEnd = false →
    decode s.cfg.decode5xynAny [s.byteAt s.pc.toNat, s.byteAt (s.pc.toNat + 1)] = .ok (i, []) →
    (∀ k rest, s.script = .tick k :: rest →
      step s = exec i
        { { s with script := rest }.decay k with boot := .ticked, pc := s.pc + 2, last := some i }) ∧
    (s.script = [] →
      step s = exec i
        { s.drawn.decay (Config.freePeriods s.draws) with boot := .ticked, pc := s.pc + 2, last := some i })

/-- R114: a tick that fetches a word that does not decode raises UnknownOpcode with that word, and stops.
pc is past the word, the timers have decayed, and nothing else has changed but status and, in this
model, `last`, which is free (log 10), and the boot phase (log 6). -/
def Obligations.UnknownOpcodeStopsTheTick : Prop :=
  ∀ (s : State) (k : Nat), s.tickRefusal = none → s.atEnd = false →
    decodeWord s.cfg.decode5xynAny s.fetchWord = .error (.unknownOpcode s.fetchWord) →
    ∃ u, tick k s = .fault (.raised (.unknownOpcode s.fetchWord) u) ∧
      u = { s.decay k with
        boot := u.boot
        pc := s.pc + 2
        last := u.last
        status := .faulted (.unknownOpcode s.fetchWord) } ∧
      ∀ j, ∃ r, tick j u = .refused r

/-- R112: a tick whose pc + 2 is MEM_SIZE or more ends the run, whatever the bytes there: only the timer
decay and status have changed (and, in this model, the boot phase, log 6), and no further tick is
admitted. A tick at any other pc reads the word at pc and pc + 1, runs the instruction it decodes to if
any, and does not end the run there. -/
def Obligations.EndOfProgramAtTheEndOfMemory : Prop :=
  ∀ (s : State) (k : Nat), s.tickRefusal = none →
    (s.cfg.memSize ≤ s.pc.toNat + 2 →
      ∃ t, tick k s = .next t ∧ t = { s.decay k with boot := t.boot, status := .ended } ∧
        ∀ j, ∃ r, tick j t = .refused r) ∧
    (s.pc.toNat + 2 < s.cfg.memSize →
      s.fetchWord.toNat = (s.byteAt s.pc.toNat).toNat * 256 + (s.byteAt (s.pc.toNat + 1)).toNat ∧
      (∀ i, decodeWord s.cfg.decode5xynAny s.fetchWord = .ok i →
        ∃ b, tick k s = exec i { s.decay k with boot := b, pc := s.pc + 2, last := some i }) ∧
      ∀ t, tick k s = .next t → t.status ≠ .ended)

/-- R113: after the fetch at p the handler runs on the state with pc = p + 2 (timers decayed, `last`
recorded, and some boot phase). So CallSub pushes p + 2, a skip adds 2 to p + 2 exactly when its
condition holds and otherwise leaves p + 2, an instruction that neither skips nor jumps leaves p + 2,
and so does a tick that faults. -/
def Obligations.PcIsPastTheWordWhenItRuns : Prop :=
  ∀ (s : State) (k : Nat), s.tickRefusal = none → s.atEnd = false →
    (∀ i, decodeWord s.cfg.decode5xynAny s.fetchWord = .ok i →
      ∃ b, tick k s = exec i { s.decay k with boot := b, pc := s.pc + 2, last := some i }) ∧
    (∀ i t, decodeWord s.cfg.decode5xynAny s.fetchWord = .ok i → tick k s = .next t →
      (skips i = false → jumps i = false → t.pc = s.pc + 2) ∧
      (skips i = true → t.pc = if skipTaken s i then s.pc + 2 + 2 else s.pc + 2) ∧
      ∀ nnn, i = .callSub nnn → t.stack = (s.pc + 2) :: s.stack) ∧
    (∀ nnn, decodeWord s.cfg.decode5xynAny s.fetchWord = .ok (.callSub nnn) →
      s.stack.length < s.cfg.stackCap → ∃ t, tick k s = .next t ∧ t.stack = (s.pc + 2) :: s.stack) ∧
    ∀ kind u, tick k s = .fault (.raised kind u) → u.pc = s.pc + 2

/-- R110, R271, R272, U13, U14: no tick is admitted unless status is Running, and none before `load` or
after a failed one. The refusals' names are the model's (log 12). -/
def Obligations.TickNeedsRunningAndLoaded : Prop :=
  ∀ (s : State) (k : Nat),
    (s.boot = .awaitingLoad → tick k s = .refused .tickBeforeLoad) ∧
    (s.boot = .loadFailed → tick k s = .refused .tickAfterFailedLoad) ∧
    (s.boot = .loaded ∨ s.boot = .ticked → s.status ≠ .running →
      tick k s = .refused (.notRunning s.status)) ∧
    (s.boot = .loaded ∨ s.boot = .ticked → s.status = .running → ∀ r, tick k s ≠ .refused r)

/-- R111 (D10, D39): decay by k takes k off each written timer, down to 0, leaves an unwritten one
unwritten, changes nothing else, and decay by j and then k is decay by j + k. -/
def Obligations.DecayTakesElapsedPeriodsOffBothTimers : Prop :=
  ∀ (s : State) (j k : Nat),
    (s.unwritten.dt = false → (s.decay k).dt.toNat = s.dt.toNat - k) ∧
    (s.unwritten.st = false → (s.decay k).st.toNat = s.st.toNat - k) ∧
    (s.unwritten.dt = true → (s.decay k).dt = s.dt) ∧
    (s.unwritten.st = true → (s.decay k).st = s.st) ∧
    s.decay k = { s with dt := (s.decay k).dt, st := (s.decay k).st } ∧
    (s.decay j).decay k = s.decay (j + k)

/-- R52, R53, R65: the fetch reads the byte at pc and the one after it, big-endian, at any pc, and sees
the bytes last stored there. -/
def Obligations.FetchReadsTheLastStoredBytes : Prop :=
  ∀ (s : State),
    s.fetchWord.toNat = (s.byteAt s.pc.toNat).toNat * 256 + (s.byteAt (s.pc.toNat + 1)).toNat ∧
    ∀ b0 b1, (s.storeBytes s.pc.toNat [b0, b1]).fetchWord.toNat = b0.toNat * 256 + b1.toNat

/-- R278, R225, R226, whatever the host does (its moves are the script's, log 7, or free, log 14): while
a wait is outstanding no instruction runs: a step leaves pc, I, the timers, memory, the stack, the
framebuffer and every V register but the waiting one as they were. -/
def Obligations.NoInstructionRunsDuringAWait : Prop :=
  ∀ (s t : State) (x : Nibble), Inv s → s.wait = some x → step s = .next t →
    t.pc = s.pc ∧ t.index = s.index ∧ t.dt = s.dt ∧ t.st = s.st ∧ t.mem = s.mem ∧ t.stack = s.stack ∧
      t.fb = s.fb ∧ t.last = s.last ∧ t.cfg = s.cfg ∧
      ∀ r, r ≠ x → t.getV r = s.getV r ∧ t.vUnwritten r = s.vUnwritten r

/-! ### Invariants -/

/-- The machine's invariant (`Safety.Inv`, this model's own gathering of R29, R31, R33 to R35, R50 and
R270, with the memory's canonical form, log 3) is kept by every step, whatever the host's next move. -/
def Obligations.StepKeepsTheInvariant : Prop :=
  ∀ s t : State, Inv s → step s = .next t → Inv t

/-- The invariant holds after reset, and so does what R39 gives: pc at 0x200, the stack empty, no wait,
Running, nothing decoded, FONT in place. That V0..VF, I, DT and ST hold a value, and that it is 0, is
the model's choice (log 1). -/
def Obligations.ResetMeetsTheInvariant : Prop :=
  Inv State.reset ∧ AllWritten State.reset ∧ (∀ x, State.reset.getV x = 0) ∧ State.reset.index = 0 ∧
    State.reset.dt = 0 ∧ State.reset.st = 0 ∧ State.reset.pc = 0x200 ∧ State.reset.stack = [] ∧
    State.reset.wait = none ∧ State.reset.status = .running ∧ State.reset.last = none ∧
    ∀ a, (h : a < 80) → State.reset.byteAt a = State.reset.cfg.font[a]

/-- Model's choice (log 1): from a state in which every register holds a value, every step leaves one in
which every register holds a value. -/
def Obligations.StepKeepsEveryRegisterWritten : Prop :=
  ∀ s t : State, AllWritten s → step s = .next t → AllWritten t

/-- R242: where every register holds a value, no instruction raises Uninitialised. -/
def Obligations.WrittenRegistersAreReadWithoutFault : Prop :=
  ∀ (i : Instr) (s u : State) (r : RegName), AllWritten s →
    exec i s ≠ .fault (.raised (.uninitialised r) u)

/-- R244, R245, R246 (D24; the outcome carries the state, log 11): a fault of a handler changes nothing
but the run status: no register, byte, pixel, stack entry or flag. -/
def Obligations.FaultsLeaveTheStateAsItWas : Prop :=
  ∀ (i : Instr) (s : State) (f : Fault), exec i s = .fault f →
    ∃ kind, f = .raised kind { s with status := .faulted kind }

/-- R4, R83, R201: every instruction has its meaning: a handler answers a next state or a fault of R241, and
the fault is never BoundsError::Register, BoundsError::Display or UnknownOpcode. -/
def Obligations.HandlersNeverRefuse : Prop :=
  ∀ (i : Instr) (s : State),
    (∀ r, exec i s ≠ .refused r) ∧
    ∀ kind u, exec i s = .fault (.raised kind u) →
      (∀ n, kind ≠ .boundsRegister n) ∧ (∀ a b, kind ≠ .boundsDisplay a b) ∧ ∀ w, kind ≠ .unknownOpcode w

/-! ### Whole-machine frames -/

/-- R57, R51: only StoreBCDOfXInI and Store0ToXInI change memory. -/
def Obligations.OnlyStoresChangeMemory : Prop :=
  ∀ (i : Instr) (s t : State), exec i s = .next t → storesToMemory i = false → t.mem = s.mem ∧ SameBytes s t

/-- R31: only Clear and DrawSpriteInXY change the framebuffer; it stays a grid of DISP_W by DISP_H; a
host's get or set outside it is BoundsError::Display, and the core's own accesses never raise that. -/
def Obligations.FramebufferChangesOnlyByClearAndDraw : Prop :=
  (∀ (i : Instr) (s t : State), exec i s = .next t → writesScreen i = false → t.fb = s.fb) ∧
  (∀ (i : Instr) (s t : State), s.fb.fits s.cfg = true → exec i s = .next t → t.fb.fits t.cfg = true) ∧
  (∀ (s : State) (x y : Nat) (p : Pixel), ¬(x < s.cfg.dispW ∧ y < s.cfg.dispH) →
    displayGet x y s = .error (.boundsDisplay x y) ∧ displaySet x y p s = .error (.boundsDisplay x y)) ∧
  (∀ (s : State) (x y : Nat) (p : Pixel), s.fb.fits s.cfg = true → x < s.cfg.dispW → y < s.cfg.dispH →
    ∃ fb, displaySet x y p s = .ok fb ∧ fb.get x y = p ∧
      ∀ x' y', (x', y') ≠ (x, y) → fb.get x' y' = s.fb.get x' y') ∧
  ∀ (i : Instr) (s u : State) (x y : Nat), exec i s ≠ .fault (.raised (.boundsDisplay x y) u)

/-- R29: push fails with Full exactly when the stack holds STACK_CAP entries and otherwise adds its
argument; pop fails with Empty exactly when it is empty and otherwise gives back the last pushed;
no instruction but CallSub and Return touches the stack. -/
def Obligations.StackIsLastInFirstOut : Prop :=
  (∀ (s : State) (a : Word) (k : State → Out), s.stack.length = s.cfg.stackCap →
    pushStack a s k = .fault (.raised (.stackFull s.fetchAddr)
      { s with status := .faulted (.stackFull s.fetchAddr) })) ∧
  (∀ (s : State) (a : Word) (k : State → Out), s.stack.length < s.cfg.stackCap →
    pushStack a s k = k { s with stack := a :: s.stack }) ∧
  (∀ (s : State) (k : Word → State → Out), s.stack.length = 0 →
    popStack s k = .fault (.raised (.stackEmpty s.fetchAddr)
      { s with status := .faulted (.stackEmpty s.fetchAddr) })) ∧
  (∀ (s : State) (a : Word) (k : Word → State → Out), s.stack.length < s.cfg.stackCap →
    pushStack a s (fun u => popStack u k) = k a s) ∧
  ∀ (i : Instr) (s t : State), exec i s = .next t → touchesStack i = false → t.stack = s.stack

/-- R27, R28: DT is written by SetDTToX and by decay alone, which takes it toward 0 and stops there, and is
read by StoreValDTInX; ST likewise by SetSTToX and decay. -/
def Obligations.TimersWrittenOnlyBySetAndDecay : Prop :=
  (∀ (i : Instr) (s t : State), exec i s = .next t → (∀ x, i ≠ .setDTToX x) →
    t.dt = s.dt ∧ t.unwritten.dt = s.unwritten.dt) ∧
  (∀ (i : Instr) (s t : State), exec i s = .next t → (∀ x, i ≠ .setSTToX x) →
    t.st = s.st ∧ t.unwritten.st = s.unwritten.st) ∧
  (∀ (x : Nibble) (s : State), Written s x →
    ∃ t, exec (.setDTToX x) s = .next t ∧ t.dt = s.getV x ∧ t.unwritten.dt = false) ∧
  (∀ (x : Nibble) (s : State), s.unwritten.dt = false →
    ∃ t, exec (.storeValDTInX x) s = .next t ∧ t.getV x = s.dt) ∧
  (∀ (x : Nibble) (s : State), Written s x →
    ∃ t, exec (.setSTToX x) s = .next t ∧ t.st = s.getV x ∧ t.unwritten.st = false) ∧
  ∀ (s : State) (k : Nat),
    (s.unwritten.dt = false → (s.decay k).dt.toNat = s.dt.toNat - k) ∧
    (s.unwritten.st = false → (s.decay k).st.toNat = s.st.toNat - k) ∧ (s.decay k).unwritten = s.unwritten

/-- R32: no instruction and no host move but `set` changes a key level; `set` changes exactly its key's,
and that level is what the key skips read. -/
def Obligations.KeyLevelsAreTheHosts : Prop :=
  (∀ (i : Instr) (s t : State), exec i s = .next t → t.keys = s.keys) ∧
  (∀ (m : HostMove) (s t : State), hostMove m s = .next t → (∀ key pressed, m ≠ .setKey key pressed) →
    t.keys = s.keys) ∧
  (∀ (s : State) (key other : Nibble) (pressed : Bool),
    (deliverKey key pressed s).keyLevel other = if other = key then pressed else s.keyLevel other) ∧
  ∀ (s : State) (x key : Nibble), Holds s x (key.setWidth 8) →
    exec (.skipIfKeyInXIsPressed x) s = .next (if s.keyLevel key then { s with pc := s.pc + 2 } else s) ∧
    exec (.skipIfKeyInXIsNotPressed x) s = .next (if s.keyLevel key then s else { s with pc := s.pc + 2 })

/-- R21, R22, R26: an instruction writes no V register but those `writtenVs` lists, and I only in the
three instructions that set it. -/
def Obligations.RegistersOutsideTheListAreUnchanged : Prop :=
  ∀ (i : Instr) (s t : State), exec i s = .next t →
    (∀ r, r ∉ writtenVs i → t.getV r = s.getV r ∧ t.vUnwritten r = s.vUnwritten r) ∧
    (writesIndex i = false → t.index = s.index ∧ t.unwritten.index = s.unwritten.index)

/-- R24, R37, R33, R34: pc after each kind of instruction; and no instruction changes the configuration,
the boot phase, `last` or the host's script, nor, but for WaitForKeyAndStoreInX, the wait or the status.
-/
def Obligations.ProgramCounterAfterEachInstruction : Prop :=
  ∀ (i : Instr) (s t : State), exec i s = .next t →
    (skips i = false → jumps i = false → t.pc = s.pc) ∧
    (skips i = true → t.pc = s.pc ∨ t.pc = s.pc + 2) ∧
    (∀ nnn, i = .jumpNNN nnn ∨ i = .callSub nnn → t.pc.toNat = nnn.toNat) ∧
    (∀ nnn, i = .jumpToAddrNNNPlusV0 nnn → t.pc.toNat = nnn.toNat + (s.getV 0).toNat) ∧
    (i = .ret → ∃ rest, s.stack = t.pc :: rest) ∧
    t.cfg = s.cfg ∧ t.boot = s.boot ∧ t.last = s.last ∧ t.script = s.script ∧
    ((∀ x, i ≠ .waitForKeyAndStoreInX x) → t.wait = s.wait ∧ t.status = s.status)

/-! ### Control -/

/-- R130 (D42): the word 0000 is Nop, which changes nothing: pc stays past it. -/
def Obligations.NopChangesNothing : Prop :=
  (∀ any : Bool, decodeWord any 0x0000 = .ok .nop) ∧ ∀ s : State, exec .nop s = .next s

/-- R132: exactly the word 00E0 is Clear; every pixel becomes Clear; nothing else changes, VF among it;
it never faults; on a clear framebuffer it is a no-op. -/
def Obligations.ClearBlanksEveryPixel : Prop :=
  (∀ (any : Bool) (w : Word), decodeWord any w = .ok .clear ↔ w = 0x00E0) ∧
  operandTuple .clear = (0x0, 0xE, 0x0) ∧
  ∀ s : State, ∃ t, exec .clear s = .next t ∧ t = { s with fb := t.fb } ∧ SameBytes s t ∧
    t.fb.fits s.cfg = true ∧ (∀ x y, t.fb.get x y = .clear) ∧
    (s.fb.fits s.cfg = true → (∀ x y, s.fb.get x y = .clear) → t = s)

/-- R133 (D21): Return takes the last pushed address off the stack into pc and changes nothing else; on an
empty stack it faults StackError::Empty with the fetch address pc - 2. -/
def Obligations.ReturnPopsIntoPc : Prop :=
  (∀ (s : State) (a : Word) (rest : List Word), s.stack = a :: rest →
    ∃ t, exec .ret s = .next t ∧ t.pc = a ∧ t.stack = rest ∧ OnlyPcStack s t) ∧
  ∀ s : State, s.stack = [] → Faults .ret s (.stackEmpty (s.pc - 2))

/-- R134 (D21): JumpNNN sets pc to NNN, unchecked, and changes nothing else. -/
def Obligations.JumpSetsPc : Prop :=
  ∀ (nnn : Addr12) (s : State),
    ∃ t, exec (.jumpNNN nnn) s = .next t ∧ t.pc.toNat = nnn.toNat ∧ OnlyPc s t

/-- R135: CallSub pushes pc, which is the address after the call, and sets pc to NNN; with STACK_CAP
entries on the stack it faults StackError::Full with the fetch address. -/
def Obligations.CallPushesThenJumps : Prop :=
  ∀ (nnn : Addr12) (s : State),
    (s.stack.length < s.cfg.stackCap →
      ∃ t, exec (.callSub nnn) s = .next t ∧ t.pc.toNat = nnn.toNat ∧ t.stack = s.pc :: s.stack ∧
        OnlyPcStack s t) ∧
    (s.stack.length = s.cfg.stackCap → Faults (.callSub nnn) s (.stackFull (s.pc - 2)))

/-- R135, R133 (95_test_vectors.md S8): a Return in a state where pc, the V registers, memory and
everything else may have changed but the stack is the call's comes back to the address after the
call, with the stack the caller had. -/
def Obligations.ReturnComesBackAfterTheCall : Prop :=
  ∀ (nnn : Addr12) (s t u : State), exec (.callSub nnn) s = .next t → u.stack = t.stack →
    ∃ r, exec .ret u = .next r ∧ r.pc = s.pc ∧ r.stack = s.stack ∧ OnlyPcStack u r

/-- R136 (D20): with V0 written, the jump goes to NNN + V0, which does not wrap, if that is below
MEM_SIZE, and otherwise faults BoundsError::Memory with it; with V0 unwritten it faults. -/
def Obligations.IndexedJumpIsBoundsChecked : Prop :=
  ∀ (nnn : Addr12) (s : State),
    (Written s 0 → nnn.toNat + (s.getV 0).toNat < s.cfg.memSize →
      ∃ t, exec (.jumpToAddrNNNPlusV0 nnn) s = .next t ∧ t.pc.toNat = nnn.toNat + (s.getV 0).toNat ∧
        OnlyPc s t) ∧
    (Written s 0 → s.cfg.memSize ≤ nnn.toNat + (s.getV 0).toNat →
      Faults (.jumpToAddrNNNPlusV0 nnn) s (.boundsMemory (nnn.toNat + (s.getV 0).toNat))) ∧
    (s.vUnwritten 0 = true → Faults (.jumpToAddrNNNPlusV0 nnn) s (.uninitialised (.v 0)))

/-! ### Skips -/

/-- R140, R141, R142: with VX written, EqNN and NotEqNN skip two bytes exactly when VX = NN, respectively
VX ≠ NN, and change nothing else. -/
def Obligations.SkipsComparingAnImmediate : Prop :=
  ∀ (x : Nibble) (nn : Byte) (s : State), Written s x →
    (∃ t, exec (.eqNN x nn) s = .next t ∧ OnlyPc s t ∧
      t.pc = if s.getV x = nn then s.pc + 2 else s.pc) ∧
    ∃ t, exec (.notEqNN x nn) s = .next t ∧ OnlyPc s t ∧
      t.pc = if s.getV x = nn then s.pc else s.pc + 2

/-- R140, R143, R144: with VX and VY written, EqY and NotEqY skip two bytes exactly when VX = VY,
respectively VX ≠ VY, and change nothing else; X = Y always skips in the one and never in the other. -/
def Obligations.SkipsComparingTwoRegisters : Prop :=
  ∀ (x y n : Nibble) (s : State), Written s x → Written s y →
    (∃ t, exec (.eqY x y n) s = .next t ∧ OnlyPc s t ∧
      t.pc = if s.getV x = s.getV y then s.pc + 2 else s.pc) ∧
    (∃ t, exec (.notEqY x y) s = .next t ∧ OnlyPc s t ∧
      t.pc = if s.getV x = s.getV y then s.pc else s.pc + 2)

/-- R220, R221 (D22): with VX written and below 16, the key skips skip exactly when key VX is pressed,
respectively not pressed; with VX 16 or more both fault KeyOutOfRange with VX. -/
def Obligations.KeySkipsReadTheLevel : Prop :=
  ∀ (x : Nibble) (s : State), Written s x →
    (∀ key : Nibble, (s.getV x).toNat = key.toNat →
      (∃ t, exec (.skipIfKeyInXIsPressed x) s = .next t ∧ OnlyPc s t ∧
        t.pc = if s.keyLevel key then s.pc + 2 else s.pc) ∧
      ∃ t, exec (.skipIfKeyInXIsNotPressed x) s = .next t ∧ OnlyPc s t ∧
        t.pc = if s.keyLevel key then s.pc else s.pc + 2) ∧
    (16 ≤ (s.getV x).toNat →
      Faults (.skipIfKeyInXIsPressed x) s (.keyOutOfRange (s.getV x)) ∧
      Faults (.skipIfKeyInXIsNotPressed x) s (.keyOutOfRange (s.getV x)))

/-! ### Registers and ALU -/

/-- R151, R152, R153: loading an immediate, adding one mod 256 and copying a register write VX and
nothing else: no flag. -/
def Obligations.LoadsAndImmediateAdd : Prop :=
  (∀ (x : Nibble) (nn : Byte) (s : State),
    ∃ t, exec (.storeNNInX x nn) s = .next t ∧ Holds t x nn ∧ OnlyV [x] s t) ∧
  (∀ (x : Nibble) (nn : Byte) (s : State), Written s x →
    ∃ t, exec (.addNNToX x nn) s = .next t ∧ Written t x ∧
      (t.getV x).toNat = ((s.getV x).toNat + nn.toNat) % 256 ∧ OnlyV [x] s t) ∧
  ∀ (x y : Nibble) (s : State), Written s y →
    ∃ t, exec (.storeYInX x y) s = .next t ∧ Holds t x (s.getV y) ∧ OnlyV [x] s t

/-- R154, R155, R156 (D14): OR, AND and XOR write VX bit by bit and nothing else: VF only as VX. -/
def Obligations.LogicWritesNoFlag : Prop :=
  ∀ (x y : Nibble) (s : State), Written s x → Written s y →
    (∃ t, exec (.orYToX x y) s = .next t ∧ Written t x ∧ OnlyV [x] s t ∧
      ∀ b, (t.getV x).getLsbD b = ((s.getV x).getLsbD b || (s.getV y).getLsbD b)) ∧
    (∃ t, exec (.andYToX x y) s = .next t ∧ Written t x ∧ OnlyV [x] s t ∧
      ∀ b, (t.getV x).getLsbD b = ((s.getV x).getLsbD b && (s.getV y).getLsbD b)) ∧
    ∃ t, exec (.xorYToX x y) s = .next t ∧ Written t x ∧ OnlyV [x] s t ∧
      ∀ b, (t.getV x).getLsbD b = ((s.getV x).getLsbD b ^^ (s.getV y).getLsbD b)

/-- R157: the words 8XY4 are AddYToX; with VX and VY written, VX becomes the sum mod 256 unless X = F, VF
becomes 1 exactly when the sum exceeds 255 and else 0, and nothing else changes; with VX unwritten,
or VX written and VY unwritten, it faults Uninitialised. -/
def Obligations.AddSetsCarry : Prop :=
  ∀ (x y : Nibble) (s : State),
    (∀ any : Bool, decodeWord any (wordOfNibbles 0x8 x y 0x4) = .ok (.addYToX x y)) ∧
    (Written s x → Written s y → ∃ t, exec (.addYToX x y) s = .next t ∧ OnlyV [x, regVF] s t ∧
      (x ≠ regVF → Written t x ∧ (t.getV x).toNat = ((s.getV x).toNat + (s.getV y).toNat) % 256) ∧
      Holds t regVF (if 255 < (s.getV x).toNat + (s.getV y).toNat then 1 else 0)) ∧
    (s.vUnwritten x = true → Faults (.addYToX x y) s (.uninitialised (.v x))) ∧
    (Written s x → s.vUnwritten y = true → Faults (.addYToX x y) s (.uninitialised (.v y)))

/-- R158, R160 (C1), R150 (D13): the difference mod 256 unless X = F, VF 1 exactly when there is no
borrow, from the values before any write; nothing else changes. -/
def Obligations.SubtractionsSetNoBorrow : Prop :=
  ∀ (x y : Nibble) (s : State), Written s x → Written s y →
    (∃ t, exec (.subYFromX x y) s = .next t ∧ OnlyV [x, regVF] s t ∧
      (x ≠ regVF → Written t x ∧ (t.getV x).toNat = ((s.getV x).toNat + 256 - (s.getV y).toNat) % 256) ∧
      Holds t regVF (if (s.getV y).toNat ≤ (s.getV x).toNat then 1 else 0)) ∧
    ∃ t, exec (.subXFromY x y) s = .next t ∧ OnlyV [x, regVF] s t ∧
      (x ≠ regVF → Written t x ∧ (t.getV x).toNat = ((s.getV y).toNat + 256 - (s.getV x).toNat) % 256) ∧
      Holds t regVF (if (s.getV x).toNat ≤ (s.getV y).toNat then 1 else 0)

/-- R159, R161 (C2), R150 (D13): the shifts take VY, write it shifted by one into VX unless X = F, and VF
the bit shifted out; VX is not read. -/
def Obligations.ShiftsTakeVYAndSetTheLostBit : Prop :=
  ∀ (x y : Nibble) (s : State), Written s y →
    (∃ t, exec (.storeYShiftedRightInX x y) s = .next t ∧ OnlyV [x, regVF] s t ∧
      (x ≠ regVF → Written t x ∧ (t.getV x).toNat = (s.getV y).toNat / 2) ∧ Written t regVF ∧
      (t.getV regVF).toNat = (s.getV y).toNat % 2) ∧
    ∃ t, exec (.storeYShiftedLeftInX x y) s = .next t ∧ OnlyV [x, regVF] s t ∧
      (x ≠ regVF → Written t x ∧ (t.getV x).toNat = (s.getV y).toNat * 2 % 256) ∧ Written t regVF ∧
      (t.getV regVF).toNat = (s.getV y).toNat / 128

/-- R162 (D31): VX becomes r & NN, for r the next byte the state lists for the random source, or, when it
lists none, some byte r that is free (log 9); nothing else of the core changes, and NN = 0 gives 0. -/
def Obligations.RandomIsMasked : Prop :=
  ∀ (x : Nibble) (nn : Byte) (s : State),
    (∀ r rest, s.randoms = r :: rest →
      ∃ t, exec (.setXToRandomNumWithMaskNN x nn) s = .next t ∧ Holds t x (r &&& nn) ∧
        OnlyV [x] { s with randoms := rest } t) ∧
    ∃ t, exec (.setXToRandomNumWithMaskNN x nn) s = .next t ∧
      OnlyV [x] { s with randoms := t.randoms, draws := t.draws } t ∧
      (nn = 0 → Holds t x 0) ∧ ∃ r, Holds t x (r &&& nn)

/-- R163, R22, R150: after each of the five flag-writing ALU instructions and after a draw, VF holds
exactly 0 or 1. -/
def Obligations.FlagsAreZeroOrOne : Prop :=
  ∀ (i : Instr) (s t : State) (x y n : Nibble),
    i ∈ [.addYToX x y, .subYFromX x y, .storeYShiftedRightInX x y, .subXFromY x y,
      .storeYShiftedLeftInX x y, .drawSpriteInXY x y n] →
    exec i s = .next t → Holds t regVF 0 ∨ Holds t regVF 1

/-! ### Index and memory -/

/-- R180, R181 (D18), R182 (D19): StoreMemAddrNNNInRegI sets I to NNN, AddXToI adds VX to it mod 2^16, and
SetIToMemAddrOfSpriteInX sets it to VX times 5; nothing else changes. -/
def Obligations.IndexSetters : Prop :=
  (∀ (nnn : Addr12) (s : State), ∃ t, exec (.storeMemAddrNNNInRegI nnn) s = .next t ∧
    t.index.toNat = nnn.toNat ∧ t.unwritten.index = false ∧ OnlyIndex s t) ∧
  (∀ (x : Nibble) (s : State), Written s x → s.unwritten.index = false →
    ∃ t, exec (.addXToI x) s = .next t ∧
      t.index.toNat = (s.index.toNat + (s.getV x).toNat) % 65536 ∧ OnlyIndex s t) ∧
  ∀ (x : Nibble) (s : State), Written s x →
    ∃ t, exec (.setIToMemAddrOfSpriteInX x) s = .next t ∧
      t.index.toNat = (s.getV x).toNat * 5 ∧ t.unwritten.index = false ∧ OnlyIndex s t

/-- R183, R58 (D16): StoreBCDOfXInI stores the three decimal digits of VX at I, I+1, I+2, in bounds;
past the end of memory the fault, with no byte written. -/
def Obligations.BcdStoresThreeDigits : Prop :=
  ∀ (x : Nibble) (s : State), Written s x → s.unwritten.index = false →
    (s.index.toNat + 3 ≤ s.cfg.memSize →
      ∃ t, exec (.storeBCDOfXInI x) s = .next t ∧
        (t.byteAt s.index.toNat).toNat = (s.getV x).toNat / 100 ∧
        (t.byteAt (s.index.toNat + 1)).toNat = (s.getV x).toNat / 10 % 10 ∧
        (t.byteAt (s.index.toNat + 2)).toNat = (s.getV x).toNat % 10 ∧
        OnlyBytes s.index.toNat 3 s t) ∧
    (s.cfg.memSize < s.index.toNat + 3 → Faults (.storeBCDOfXInI x) s (.boundsMemory s.index.toNat))

/-- R184, R58 (D16, D17): Store0ToXInI stores V0..V(X-1), not VX, at I..I+X-1; X = 0 stores nothing and
reads nothing; past the end of memory the fault, with no byte written. -/
def Obligations.StoreRegistersExclusive : Prop :=
  ∀ (x : Nibble) (s : State),
    (x = 0 → exec (.store0ToXInI x) s = .next s) ∧
    (x ≠ 0 → s.unwritten.index = false → (∀ r : Nibble, r < x → Written s r) →
      (s.index.toNat + x.toNat ≤ s.cfg.memSize →
        ∃ t, exec (.store0ToXInI x) s = .next t ∧
          (∀ r : Nibble, r < x → t.byteAt (s.index.toNat + r.toNat) = s.getV r) ∧
          OnlyBytes s.index.toNat x.toNat s t) ∧
      (s.cfg.memSize < s.index.toNat + x.toNat →
        Faults (.store0ToXInI x) s (.boundsMemory s.index.toNat)))

/-- R185, R58 (D16, D17): Fill0ToXWithValueInAddrI loads V0..V(X-1), not VX, from I..I+X-1; X = 0 loads
nothing and reads nothing; past the end of memory the fault, with no register written. -/
def Obligations.LoadRegistersExclusive : Prop :=
  ∀ (x : Nibble) (s : State),
    (x = 0 → exec (.fill0ToXWithValueInAddrI x) s = .next s) ∧
    (x ≠ 0 → s.unwritten.index = false →
      (s.index.toNat + x.toNat ≤ s.cfg.memSize →
        ∃ t, exec (.fill0ToXWithValueInAddrI x) s = .next t ∧
          (∀ r : Nibble, r < x → Holds t r (s.byteAt (s.index.toNat + r.toNat))) ∧
          OnlyV (writtenVs (.fill0ToXWithValueInAddrI x)) s t ∧
          ∀ r : Nibble, x ≤ r → t.getV r = s.getV r ∧ t.vUnwritten r = s.vUnwritten r) ∧
      (s.cfg.memSize < s.index.toNat + x.toNat →
        Faults (.fill0ToXWithValueInAddrI x) s (.boundsMemory s.index.toNat)))

/-- R184, R185: what Store0ToXInI stored, Fill0ToXWithValueInAddrI of the same X and I loads back into
V0..V(X-1), whatever has happened to the V registers between. -/
def Obligations.LoadAfterStoreRestoresRegisters : Prop :=
  ∀ (x : Nibble) (s t u r : State), exec (.store0ToXInI x) s = .next t →
    u.mem = t.mem → u.cfg = t.cfg → u.index = t.index →
    exec (.fill0ToXWithValueInAddrI x) u = .next r →
    ∀ v : Nibble, v < x → r.getV v = s.getV v

/-- R58, R59 (D27), R62 (D32), log 3: a byte stored is the byte read back at its address, font and
program included, and every other address keeps its byte; storing keeps the canonical form of memory. -/
def Obligations.StoredBytesReadBack : Prop :=
  ∀ (s : State) (a : Nat) (bs : List Byte),
    (∀ j, (h : j < bs.length) → (s.storeBytes a bs).byteAt (a + j) = bs[j]) ∧
    OnlyBytes a bs.length s (s.storeBytes a bs) ∧
    (s.mem.wf s.cfg = true → a + bs.length ≤ s.cfg.memSize → (s.storeBytes a bs).mem.wf s.cfg = true)

/-! ### Draw -/

/-- R200 to R204 (D15, D16): in bounds, every pixel is XORed once for each set bit that lands on it, bit 7
leftmost, wrapped by the width and by the height; VF becomes 1 exactly when a set bit landed on a
Set pixel; nothing else changes. With N = 0 nothing is drawn and VF becomes 0. -/
def Obligations.DrawXorsTheSprite : Prop :=
  ∀ (x y n : Nibble) (s : State), Inv s → Written s x → Written s y →
    (n = 0 → ∃ t, exec (.drawSpriteInXY x y n) s = .next t ∧ OnlyV [regVF] s t ∧ Holds t regVF 0) ∧
    (n ≠ 0 → s.unwritten.index = false → s.index.toNat + n.toNat ≤ s.cfg.memSize →
      ∃ t, exec (.drawSpriteInXY x y n) s = .next t ∧ OnlyFbVF s t ∧ t.fb.fits s.cfg = true ∧
        (∀ px py, px < s.cfg.dispW → py < s.cfg.dispH →
          t.fb.get px py = pixelAfter (s.fb.get px py)
            (spriteHits s.cfg.dispW s.cfg.dispH (s.getV x).toNat (s.getV y).toNat
              (fun r => s.byteAt (s.index.toNat + r)) n.toNat px py)) ∧
        (Holds t regVF 0 ∨ Holds t regVF 1) ∧
        (t.getV regVF = 1 ↔ ∃ px py, px < s.cfg.dispW ∧ py < s.cfg.dispH ∧
          pixelCollides (s.fb.get px py)
            (spriteHits s.cfg.dispW s.cfg.dispH (s.getV x).toNat (s.getV y).toNat
              (fun r => s.byteAt (s.index.toNat + r)) n.toNat px py)))

/-- R200, R58 (D16): a draw of N ≥ 1 rows past the end of memory faults BoundsError::Memory with I,
before any pixel or VF changes. -/
def Obligations.DrawPastMemoryFaults : Prop :=
  ∀ (x y n : Nibble) (s : State), Written s x → Written s y → s.unwritten.index = false → n ≠ 0 →
    s.cfg.memSize < s.index.toNat + n.toNat →
    Faults (.drawSpriteInXY x y n) s (.boundsMemory s.index.toNat)

/-- R200 (95_test_vectors.md S9): drawing the same sprite twice at the same place restores the whole
framebuffer, whatever was on it, at any place and size, where the flag of the first draw does not
change the coordinates. -/
def Obligations.DrawingTwiceRestoresTheScreen : Prop :=
  ∀ (x y n : Nibble) (s t : State), Inv s → x ≠ regVF → y ≠ regVF →
    exec (.drawSpriteInXY x y n) s = .next t →
    ∃ u, exec (.drawSpriteInXY x y n) t = .next u ∧ u.fb = s.fb

/-! ### Keys and timers -/

/-- R222, R223, R224: the timer instructions copy between VX and a timer, and change nothing else. -/
def Obligations.TimerCopies : Prop :=
  (∀ (x : Nibble) (s : State), s.unwritten.dt = false →
    ∃ t, exec (.storeValDTInX x) s = .next t ∧ Holds t x s.dt ∧ OnlyV [x] s t) ∧
  (∀ (x : Nibble) (s : State), Written s x →
    ∃ t, exec (.setDTToX x) s = .next t ∧ t.dt = s.getV x ∧
      t = { s with dt := t.dt, unwritten := { s.unwritten with dt := false } } ∧ SameBytes s t) ∧
  ∀ (x : Nibble) (s : State), Written s x →
    ∃ t, exec (.setSTToX x) s = .next t ∧ t.st = s.getV x ∧
      t = { s with st := t.st, unwritten := { s.unwritten with st := false } } ∧ SameBytes s t

/-- R225, R226, R227 (D23): the wait suspends the tick, whatever keys are held; a release leaves it; the
next press of any key ends it, the key's code in VX and its level stored; abandoning it ends the
run with VX not written. -/
def Obligations.KeyWaitEndsWithTheNextPress : Prop :=
  ∀ (x key : Nibble) (s : State),
    ∃ t, exec (.waitForKeyAndStoreInX x) s = .next t ∧
      t = { s with wait := some x, status := .waiting } ∧ SameBytes s t ∧
      (∀ rest, ∃ u, step { t with script := .setKey key false :: rest } = .next u ∧
        u = { t with script := rest, keys := u.keys } ∧ u.keyLevel key = false) ∧
      (∀ rest, ∃ u, step { t with script := .setKey key true :: rest } = .next u ∧
        u.wait = none ∧ u.status = .running ∧ u.keyLevel key = true ∧ u.pc = s.pc ∧
        Holds u x (key.setWidth 8) ∧
        OnlyV [x] { t with script := rest, keys := u.keys, wait := none, status := .running } u) ∧
      ∀ rest, step { t with script := .abandonWait :: rest } =
        .next { t with script := rest, wait := none, status := .abandoned }

/-! ### Unwritten registers -/

/-- R242, R248 (D6): each instruction that reads VX faults Uninitialised with VX when it holds no value,
before anything else. -/
def Obligations.UnwrittenVXFaultsFirst : Prop :=
  ∀ (x y n : Nibble) (nn : Byte) (s : State), s.vUnwritten x = true →
    ∀ i ∈ ([.eqNN x nn, .notEqNN x nn, .eqY x y n, .notEqY x y, .addNNToX x nn, .orYToX x y, .andYToX x y,
        .xorYToX x y, .addYToX x y, .subYFromX x y, .subXFromY x y, .drawSpriteInXY x y n,
        .skipIfKeyInXIsPressed x, .skipIfKeyInXIsNotPressed x, .setDTToX x, .setSTToX x, .addXToI x,
        .setIToMemAddrOfSpriteInX x, .storeBCDOfXInI x, .storeYInX y x, .storeYShiftedRightInX y x,
        .storeYShiftedLeftInX y x] : List Instr),
      Faults i s (.uninitialised (.v x))

/-- R242, R248 (D6): VY is read after VX, I after both, and DT by StoreValDTInX; each faults Uninitialised
when it holds no value, and the register transfers read I before V0..V(X-1), the lowest unwritten
one of which is the fault's. -/
def Obligations.UnwrittenReadsFaultInOrder : Prop :=
  ∀ (x y n : Nibble) (s : State),
    (Written s x → s.vUnwritten y = true →
      ∀ i ∈ ([.eqY x y n, .notEqY x y, .orYToX x y, .andYToX x y, .xorYToX x y, .addYToX x y,
          .subYFromX x y, .subXFromY x y, .drawSpriteInXY x y n] : List Instr),
        Faults i s (.uninitialised (.v y))) ∧
    (Written s x → Written s y → s.unwritten.index = true →
      Faults (.addXToI x) s (.uninitialised .index) ∧
      Faults (.storeBCDOfXInI x) s (.uninitialised .index) ∧
      (n ≠ 0 → Faults (.drawSpriteInXY x y n) s (.uninitialised .index))) ∧
    (s.unwritten.dt = true → Faults (.storeValDTInX x) s (.uninitialised .dt)) ∧
    (x ≠ 0 → s.unwritten.index = true →
      Faults (.store0ToXInI x) s (.uninitialised .index) ∧
      Faults (.fill0ToXWithValueInAddrI x) s (.uninitialised .index)) ∧
    (y < x → s.unwritten.index = false → s.vUnwritten y = true → (∀ r : Nibble, r < y → Written s r) →
      Faults (.store0ToXInI x) s (.uninitialised (.v y)))

/-! ### Construction and load -/

/-- R270, R39 (D6 to D9, D38): `new` accepts exactly a good configuration with a display of its size; the
core it gives has pc at 0x200, FONT in place, an empty stack, no wait, no register with a value, the
display and keys it was given, and at each address inside memory and past the font the byte of the
last pair of the launch image that names it. An address that no pair names reads 0 (the model's choice, log 3), and the
name of the refusal of anything else is the model's (log 12). -/
def Obligations.NewCoreIsTheLaunchState : Prop :=
  ∀ (cfg : Config) (d : Framebuffer) (keys : Vector Bool 16) (image : List Host.Cell),
    (cfg.wf = true → d.fits cfg = true → ∃ t, newCore cfg d keys image = .next t ∧ Inv t ∧
      t.pc = 0x200 ∧ t.stack = [] ∧ t.wait = none ∧ t.status = .running ∧ t.last = none ∧ t.fb = d ∧
      t.keys = keys ∧ t.cfg = cfg ∧ (∀ x, t.vUnwritten x = true) ∧ t.unwritten.index = true ∧
      t.unwritten.dt = true ∧ t.unwritten.st = true ∧ (∀ a, (h : a < 80) → t.byteAt a = cfg.font[a]) ∧
      (∀ before a b after, image = before ++ (a, b) :: after → (∀ c ∈ after, c.1 ≠ a) → 80 ≤ a →
        a < cfg.memSize → t.byteAt a = b) ∧
      ∀ a, 80 ≤ a → (∀ c ∈ image, c.1 ≠ a) → t.byteAt a = 0) ∧
    (cfg.wf = false ∨ d.fits cfg = false → newCore cfg d keys image = .refused .badConfiguration)

/-- R56, R271, R272 (D28): the one `load` before the first tick copies the ROM, cut to MEM_SIZE - 0x200
bytes, to 0x200 and leaves every other byte, the font among them, and everything else as it was; a
failed one may change the bytes from 0x200 on, which are then free (log 15), and no tick follows it;
any other `load` is refused. -/
def Obligations.LoadCopiesTheRom : Prop :=
  ∀ (s : State) (rom : List Byte), s.cfg.wf = true →
    (s.boot = .awaitingLoad → ∃ t, loadRom rom s = .next t ∧
      t = { s with mem := t.mem, boot := .loaded } ∧
      (∀ j, (h : j < rom.length) → 0x200 + j < s.cfg.memSize → t.byteAt (0x200 + j) = rom[j]) ∧
      (∀ a, a < 0x200 ∨ 0x200 + rom.length ≤ a ∨ s.cfg.memSize ≤ a → t.byteAt a = s.byteAt a)) ∧
    (s.boot = .awaitingLoad → ∃ t, loadFailure s = .next t ∧
      t = { s with mem := t.mem, boot := .loadFailed, draws := t.draws } ∧
      (∀ a, a < 0x200 → t.byteAt a = s.byteAt a) ∧ ∀ k, ∃ r, tick k t = .refused r) ∧
    (s.boot ≠ .awaitingLoad →
      loadRom rom s = .refused .loadNotAdmitted ∧ loadFailure s = .refused .loadNotAdmitted)
end

