-- ==== Sys2Proof/Laws/Decode.lean ====
section
/-! SUPPORT. The fields of an assembled word, and a word assembled from its fields: what both directions
of the round trip rest on. -/

namespace Sys2Proof

/-! ### Fields of a word of four nibbles -/

variable (a b c d : Nibble)

@[simp] theorem d0_wordOfNibbles : d0 (wordOfNibbles a b c d) = a := by
  refine BitVec.eq_of_getLsbD_eq fun i hi => ?_
  rw [d0, wordOfNibbles, BitVec.getLsbD_extractLsb', BitVec.getLsbD_append, BitVec.getLsbD_append, BitVec.getLsbD_append]
  obtain rfl | rfl | rfl | rfl : i = 0 ∨ i = 1 ∨ i = 2 ∨ i = 3 := by omega
  all_goals simp

@[simp] theorem d1_wordOfNibbles : d1 (wordOfNibbles a b c d) = b := by
  refine BitVec.eq_of_getLsbD_eq fun i hi => ?_
  rw [d1, wordOfNibbles, BitVec.getLsbD_extractLsb', BitVec.getLsbD_append, BitVec.getLsbD_append, BitVec.getLsbD_append]
  obtain rfl | rfl | rfl | rfl : i = 0 ∨ i = 1 ∨ i = 2 ∨ i = 3 := by omega
  all_goals simp

@[simp] theorem d2_wordOfNibbles : d2 (wordOfNibbles a b c d) = c := by
  refine BitVec.eq_of_getLsbD_eq fun i hi => ?_
  rw [d2, wordOfNibbles, BitVec.getLsbD_extractLsb', BitVec.getLsbD_append, BitVec.getLsbD_append, BitVec.getLsbD_append]
  obtain rfl | rfl | rfl | rfl : i = 0 ∨ i = 1 ∨ i = 2 ∨ i = 3 := by omega
  all_goals simp

@[simp] theorem d3_wordOfNibbles : d3 (wordOfNibbles a b c d) = d := by
  refine BitVec.eq_of_getLsbD_eq fun i hi => ?_
  rw [d3, wordOfNibbles, BitVec.getLsbD_extractLsb', BitVec.getLsbD_append, BitVec.getLsbD_append, BitVec.getLsbD_append]
  obtain rfl | rfl | rfl | rfl : i = 0 ∨ i = 1 ∨ i = 2 ∨ i = 3 := by omega
  all_goals simp

/-! ### Fields of the formats NNN and XNN -/

@[simp] theorem d0_fmtNNN (nnn : Addr12) : d0 (fmtNNN a nnn) = a := by
  refine BitVec.eq_of_getLsbD_eq fun i hi => ?_
  rw [d0, fmtNNN, BitVec.getLsbD_extractLsb', BitVec.getLsbD_append]
  obtain rfl | rfl | rfl | rfl : i = 0 ∨ i = 1 ∨ i = 2 ∨ i = 3 := by omega
  all_goals simp

@[simp] theorem addrNNN_fmtNNN (nnn : Addr12) : addrNNN (fmtNNN a nnn) = nnn := by
  refine BitVec.eq_of_getLsbD_eq fun i hi => ?_
  rw [addrNNN, fmtNNN, BitVec.getLsbD_extractLsb', BitVec.getLsbD_append]
  simp [hi]

@[simp] theorem d0_fmtXNN (nn : Byte) : d0 (fmtXNN a b nn) = a := by
  refine BitVec.eq_of_getLsbD_eq fun i hi => ?_
  rw [d0, fmtXNN, BitVec.getLsbD_extractLsb', BitVec.getLsbD_append, BitVec.getLsbD_append]
  obtain rfl | rfl | rfl | rfl : i = 0 ∨ i = 1 ∨ i = 2 ∨ i = 3 := by omega
  all_goals simp

@[simp] theorem d1_fmtXNN (nn : Byte) : d1 (fmtXNN a b nn) = b := by
  refine BitVec.eq_of_getLsbD_eq fun i hi => ?_
  rw [d1, fmtXNN, BitVec.getLsbD_extractLsb', BitVec.getLsbD_append, BitVec.getLsbD_append]
  obtain rfl | rfl | rfl | rfl : i = 0 ∨ i = 1 ∨ i = 2 ∨ i = 3 := by omega
  all_goals simp

@[simp] theorem immNN_fmtXNN (nn : Byte) : immNN (fmtXNN a b nn) = nn := by
  refine BitVec.eq_of_getLsbD_eq fun i hi => ?_
  rw [immNN, fmtXNN, BitVec.getLsbD_extractLsb', BitVec.getLsbD_append]
  simp [hi]

/-! ### A word is assembled from its fields -/

variable (w : Word)

theorem fmtNNN_fields : fmtNNN (d0 w) (addrNNN w) = w := by
  refine BitVec.eq_of_getLsbD_eq fun i hi => ?_
  rw [fmtNNN, d0, addrNNN, BitVec.getLsbD_append]
  simp only [BitVec.getLsbD_extractLsb']
  split
  · simp [*]
  · simp [show i - 12 < 4 by omega, show 12 + (i - 12) = i by omega]

theorem fmtXNN_fields : fmtXNN (d0 w) (d1 w) (immNN w) = w := by
  refine BitVec.eq_of_getLsbD_eq fun i hi => ?_
  rw [fmtXNN, d0, d1, immNN, BitVec.getLsbD_append, BitVec.getLsbD_append]
  simp only [BitVec.getLsbD_extractLsb']
  split
  · simp [*]
  · split
    · simp [*, show 8 + (i - 8) = i by omega]
    · simp [show i - 8 - 4 < 4 by omega, show 12 + (i - 8 - 4) = i by omega]

theorem wordOfNibbles_fields : wordOfNibbles (d0 w) (d1 w) (d2 w) (d3 w) = w := by
  refine BitVec.eq_of_getLsbD_eq fun i hi => ?_
  rw [wordOfNibbles, d0, d1, d2, d3, BitVec.getLsbD_append, BitVec.getLsbD_append, BitVec.getLsbD_append]
  simp only [BitVec.getLsbD_extractLsb']
  split
  · simp [*]
  · split
    · simp [*, show 4 + (i - 4) = i by omega]
    · split
      · simp [*, show 8 + (i - 4 - 4) = i by omega]
      · simp [show i - 4 - 4 - 4 < 4 by omega, show 12 + (i - 4 - 4 - 4) = i by omega]

/-! ### Bytes of a word (R52) -/

theorem wordOfBytes_extract : wordOfBytes (w.extractLsb' 8 8) (w.extractLsb' 0 8) = w := by
  refine BitVec.eq_of_getLsbD_eq fun i hi => ?_
  rw [wordOfBytes, BitVec.getLsbD_append]
  simp only [BitVec.getLsbD_extractLsb']
  split
  · simp [*]
  · simp [show i - 8 < 8 by omega, show 8 + (i - 8) = i by omega]

theorem wordOfBytes_toNat (x y : Byte) : (wordOfBytes x y).toNat = x.toNat * 256 + y.toNat := by
  rw [wordOfBytes, BitVec.toNat_append, Nat.shiftLeft_eq, Nat.mul_comm, ← Nat.two_pow_add_eq_or_of_lt y.isLt]

/-- Decoding a word's two bytes is decoding the word. -/
theorem decode_bytesOfWord (any : Bool) (rest : List Byte) :
    decode any (bytesOfWord w ++ rest) =
      match decodeWord any w with
      | .ok i => .ok (i, rest)
      | .error e => .error e := by
  have h : decode any (bytesOfWord w ++ rest) =
      match decodeWord any (wordOfBytes (w.extractLsb' 8 8) (w.extractLsb' 0 8)) with
      | .ok i => .ok (i, rest)
      | .error e => .error e := rfl
  rw [h, wordOfBytes_extract]

/-- Decoding two bytes is decoding their word. -/
theorem decode_two (any : Bool) (x y : Byte) :
    decode any [x, y] =
      match decodeWord any (wordOfBytes x y) with
      | .ok i => .ok (i, [])
      | .error e => .error e := rfl

end Sys2Proof
end

