-- ==== Sys2Proof/Laws/State.lean ====
section
/-! SUPPORT. One lemma per field per update of the state, each true by rfl, so that no proof unfolds a
record update. -/

namespace Sys2Proof.Machine

variable (s : State)

/-! ### `State.setV` -/

@[simp] theorem State.setV_v (x : Nibble) (b : Byte) : (s.setV x b).v = s.v.set x.toNat b x.isLt := rfl
@[simp] theorem State.setV_pc (x : Nibble) (b : Byte) : (s.setV x b).pc = s.pc := rfl
@[simp] theorem State.setV_index (x : Nibble) (b : Byte) : (s.setV x b).index = s.index := rfl
@[simp] theorem State.setV_dt (x : Nibble) (b : Byte) : (s.setV x b).dt = s.dt := rfl
@[simp] theorem State.setV_st (x : Nibble) (b : Byte) : (s.setV x b).st = s.st := rfl
@[simp] theorem State.setV_stack (x : Nibble) (b : Byte) : (s.setV x b).stack = s.stack := rfl
@[simp] theorem State.setV_mem (x : Nibble) (b : Byte) : (s.setV x b).mem = s.mem := rfl
@[simp] theorem State.setV_fb (x : Nibble) (b : Byte) : (s.setV x b).fb = s.fb := rfl
@[simp] theorem State.setV_keys (x : Nibble) (b : Byte) : (s.setV x b).keys = s.keys := rfl
@[simp] theorem State.setV_wait (x : Nibble) (b : Byte) : (s.setV x b).wait = s.wait := rfl
@[simp] theorem State.setV_status (x : Nibble) (b : Byte) : (s.setV x b).status = s.status := rfl
@[simp] theorem State.setV_last (x : Nibble) (b : Byte) : (s.setV x b).last = s.last := rfl
@[simp] theorem State.setV_unwritten (x : Nibble) (b : Byte) : (s.setV x b).unwritten = { s.unwritten with v := s.unwritten.v.set x.toNat false x.isLt } := rfl
@[simp] theorem State.setV_boot (x : Nibble) (b : Byte) : (s.setV x b).boot = s.boot := rfl
@[simp] theorem State.setV_cfg (x : Nibble) (b : Byte) : (s.setV x b).cfg = s.cfg := rfl
@[simp] theorem State.setV_script (x : Nibble) (b : Byte) : (s.setV x b).script = s.script := rfl
@[simp] theorem State.setV_randoms (x : Nibble) (b : Byte) : (s.setV x b).randoms = s.randoms := rfl
@[simp] theorem State.setV_draws (x : Nibble) (b : Byte) : (s.setV x b).draws = s.draws := rfl

/-! ### `State.setIndex` -/

@[simp] theorem State.setIndex_v (w : Word) : (s.setIndex w).v = s.v := rfl
@[simp] theorem State.setIndex_pc (w : Word) : (s.setIndex w).pc = s.pc := rfl
@[simp] theorem State.setIndex_index (w : Word) : (s.setIndex w).index = w := rfl
@[simp] theorem State.setIndex_dt (w : Word) : (s.setIndex w).dt = s.dt := rfl
@[simp] theorem State.setIndex_st (w : Word) : (s.setIndex w).st = s.st := rfl
@[simp] theorem State.setIndex_stack (w : Word) : (s.setIndex w).stack = s.stack := rfl
@[simp] theorem State.setIndex_mem (w : Word) : (s.setIndex w).mem = s.mem := rfl
@[simp] theorem State.setIndex_fb (w : Word) : (s.setIndex w).fb = s.fb := rfl
@[simp] theorem State.setIndex_keys (w : Word) : (s.setIndex w).keys = s.keys := rfl
@[simp] theorem State.setIndex_wait (w : Word) : (s.setIndex w).wait = s.wait := rfl
@[simp] theorem State.setIndex_status (w : Word) : (s.setIndex w).status = s.status := rfl
@[simp] theorem State.setIndex_last (w : Word) : (s.setIndex w).last = s.last := rfl
@[simp] theorem State.setIndex_unwritten (w : Word) : (s.setIndex w).unwritten = { s.unwritten with index := false } := rfl
@[simp] theorem State.setIndex_boot (w : Word) : (s.setIndex w).boot = s.boot := rfl
@[simp] theorem State.setIndex_cfg (w : Word) : (s.setIndex w).cfg = s.cfg := rfl
@[simp] theorem State.setIndex_script (w : Word) : (s.setIndex w).script = s.script := rfl
@[simp] theorem State.setIndex_randoms (w : Word) : (s.setIndex w).randoms = s.randoms := rfl
@[simp] theorem State.setIndex_draws (w : Word) : (s.setIndex w).draws = s.draws := rfl

/-! ### `State.setDT` -/

@[simp] theorem State.setDT_v (b : Byte) : (s.setDT b).v = s.v := rfl
@[simp] theorem State.setDT_pc (b : Byte) : (s.setDT b).pc = s.pc := rfl
@[simp] theorem State.setDT_index (b : Byte) : (s.setDT b).index = s.index := rfl
@[simp] theorem State.setDT_dt (b : Byte) : (s.setDT b).dt = b := rfl
@[simp] theorem State.setDT_st (b : Byte) : (s.setDT b).st = s.st := rfl
@[simp] theorem State.setDT_stack (b : Byte) : (s.setDT b).stack = s.stack := rfl
@[simp] theorem State.setDT_mem (b : Byte) : (s.setDT b).mem = s.mem := rfl
@[simp] theorem State.setDT_fb (b : Byte) : (s.setDT b).fb = s.fb := rfl
@[simp] theorem State.setDT_keys (b : Byte) : (s.setDT b).keys = s.keys := rfl
@[simp] theorem State.setDT_wait (b : Byte) : (s.setDT b).wait = s.wait := rfl
@[simp] theorem State.setDT_status (b : Byte) : (s.setDT b).status = s.status := rfl
@[simp] theorem State.setDT_last (b : Byte) : (s.setDT b).last = s.last := rfl
@[simp] theorem State.setDT_unwritten (b : Byte) : (s.setDT b).unwritten = { s.unwritten with dt := false } := rfl
@[simp] theorem State.setDT_boot (b : Byte) : (s.setDT b).boot = s.boot := rfl
@[simp] theorem State.setDT_cfg (b : Byte) : (s.setDT b).cfg = s.cfg := rfl
@[simp] theorem State.setDT_script (b : Byte) : (s.setDT b).script = s.script := rfl
@[simp] theorem State.setDT_randoms (b : Byte) : (s.setDT b).randoms = s.randoms := rfl
@[simp] theorem State.setDT_draws (b : Byte) : (s.setDT b).draws = s.draws := rfl

/-! ### `State.setST` -/

@[simp] theorem State.setST_v (b : Byte) : (s.setST b).v = s.v := rfl
@[simp] theorem State.setST_pc (b : Byte) : (s.setST b).pc = s.pc := rfl
@[simp] theorem State.setST_index (b : Byte) : (s.setST b).index = s.index := rfl
@[simp] theorem State.setST_dt (b : Byte) : (s.setST b).dt = s.dt := rfl
@[simp] theorem State.setST_st (b : Byte) : (s.setST b).st = b := rfl
@[simp] theorem State.setST_stack (b : Byte) : (s.setST b).stack = s.stack := rfl
@[simp] theorem State.setST_mem (b : Byte) : (s.setST b).mem = s.mem := rfl
@[simp] theorem State.setST_fb (b : Byte) : (s.setST b).fb = s.fb := rfl
@[simp] theorem State.setST_keys (b : Byte) : (s.setST b).keys = s.keys := rfl
@[simp] theorem State.setST_wait (b : Byte) : (s.setST b).wait = s.wait := rfl
@[simp] theorem State.setST_status (b : Byte) : (s.setST b).status = s.status := rfl
@[simp] theorem State.setST_last (b : Byte) : (s.setST b).last = s.last := rfl
@[simp] theorem State.setST_unwritten (b : Byte) : (s.setST b).unwritten = { s.unwritten with st := false } := rfl
@[simp] theorem State.setST_boot (b : Byte) : (s.setST b).boot = s.boot := rfl
@[simp] theorem State.setST_cfg (b : Byte) : (s.setST b).cfg = s.cfg := rfl
@[simp] theorem State.setST_script (b : Byte) : (s.setST b).script = s.script := rfl
@[simp] theorem State.setST_randoms (b : Byte) : (s.setST b).randoms = s.randoms := rfl
@[simp] theorem State.setST_draws (b : Byte) : (s.setST b).draws = s.draws := rfl

/-! ### `State.storeByte` -/

@[simp] theorem State.storeByte_v (a : Nat) (b : Byte) : (s.storeByte a b).v = s.v := rfl
@[simp] theorem State.storeByte_pc (a : Nat) (b : Byte) : (s.storeByte a b).pc = s.pc := rfl
@[simp] theorem State.storeByte_index (a : Nat) (b : Byte) : (s.storeByte a b).index = s.index := rfl
@[simp] theorem State.storeByte_dt (a : Nat) (b : Byte) : (s.storeByte a b).dt = s.dt := rfl
@[simp] theorem State.storeByte_st (a : Nat) (b : Byte) : (s.storeByte a b).st = s.st := rfl
@[simp] theorem State.storeByte_stack (a : Nat) (b : Byte) : (s.storeByte a b).stack = s.stack := rfl
@[simp] theorem State.storeByte_mem (a : Nat) (b : Byte) : (s.storeByte a b).mem = s.mem.write s.cfg.font a b := rfl
@[simp] theorem State.storeByte_fb (a : Nat) (b : Byte) : (s.storeByte a b).fb = s.fb := rfl
@[simp] theorem State.storeByte_keys (a : Nat) (b : Byte) : (s.storeByte a b).keys = s.keys := rfl
@[simp] theorem State.storeByte_wait (a : Nat) (b : Byte) : (s.storeByte a b).wait = s.wait := rfl
@[simp] theorem State.storeByte_status (a : Nat) (b : Byte) : (s.storeByte a b).status = s.status := rfl
@[simp] theorem State.storeByte_last (a : Nat) (b : Byte) : (s.storeByte a b).last = s.last := rfl
@[simp] theorem State.storeByte_unwritten (a : Nat) (b : Byte) : (s.storeByte a b).unwritten = s.unwritten := rfl
@[simp] theorem State.storeByte_boot (a : Nat) (b : Byte) : (s.storeByte a b).boot = s.boot := rfl
@[simp] theorem State.storeByte_cfg (a : Nat) (b : Byte) : (s.storeByte a b).cfg = s.cfg := rfl
@[simp] theorem State.storeByte_script (a : Nat) (b : Byte) : (s.storeByte a b).script = s.script := rfl
@[simp] theorem State.storeByte_randoms (a : Nat) (b : Byte) : (s.storeByte a b).randoms = s.randoms := rfl
@[simp] theorem State.storeByte_draws (a : Nat) (b : Byte) : (s.storeByte a b).draws = s.draws := rfl

/-! ### `State.jump` -/

@[simp] theorem State.jump_v (a : Word) : (s.jump a).v = s.v := rfl
@[simp] theorem State.jump_pc (a : Word) : (s.jump a).pc = a := rfl
@[simp] theorem State.jump_index (a : Word) : (s.jump a).index = s.index := rfl
@[simp] theorem State.jump_dt (a : Word) : (s.jump a).dt = s.dt := rfl
@[simp] theorem State.jump_st (a : Word) : (s.jump a).st = s.st := rfl
@[simp] theorem State.jump_stack (a : Word) : (s.jump a).stack = s.stack := rfl
@[simp] theorem State.jump_mem (a : Word) : (s.jump a).mem = s.mem := rfl
@[simp] theorem State.jump_fb (a : Word) : (s.jump a).fb = s.fb := rfl
@[simp] theorem State.jump_keys (a : Word) : (s.jump a).keys = s.keys := rfl
@[simp] theorem State.jump_wait (a : Word) : (s.jump a).wait = s.wait := rfl
@[simp] theorem State.jump_status (a : Word) : (s.jump a).status = s.status := rfl
@[simp] theorem State.jump_last (a : Word) : (s.jump a).last = s.last := rfl
@[simp] theorem State.jump_unwritten (a : Word) : (s.jump a).unwritten = s.unwritten := rfl
@[simp] theorem State.jump_boot (a : Word) : (s.jump a).boot = s.boot := rfl
@[simp] theorem State.jump_cfg (a : Word) : (s.jump a).cfg = s.cfg := rfl
@[simp] theorem State.jump_script (a : Word) : (s.jump a).script = s.script := rfl
@[simp] theorem State.jump_randoms (a : Word) : (s.jump a).randoms = s.randoms := rfl
@[simp] theorem State.jump_draws (a : Word) : (s.jump a).draws = s.draws := rfl

/-! ### `State.setKeyLevel` -/

@[simp] theorem State.setKeyLevel_v (key : Nibble) (p : Bool) : (s.setKeyLevel key p).v = s.v := rfl
@[simp] theorem State.setKeyLevel_pc (key : Nibble) (p : Bool) : (s.setKeyLevel key p).pc = s.pc := rfl
@[simp] theorem State.setKeyLevel_index (key : Nibble) (p : Bool) : (s.setKeyLevel key p).index = s.index := rfl
@[simp] theorem State.setKeyLevel_dt (key : Nibble) (p : Bool) : (s.setKeyLevel key p).dt = s.dt := rfl
@[simp] theorem State.setKeyLevel_st (key : Nibble) (p : Bool) : (s.setKeyLevel key p).st = s.st := rfl
@[simp] theorem State.setKeyLevel_stack (key : Nibble) (p : Bool) : (s.setKeyLevel key p).stack = s.stack := rfl
@[simp] theorem State.setKeyLevel_mem (key : Nibble) (p : Bool) : (s.setKeyLevel key p).mem = s.mem := rfl
@[simp] theorem State.setKeyLevel_fb (key : Nibble) (p : Bool) : (s.setKeyLevel key p).fb = s.fb := rfl
@[simp] theorem State.setKeyLevel_keys (key : Nibble) (p : Bool) : (s.setKeyLevel key p).keys = s.keys.set key.toNat p key.isLt := rfl
@[simp] theorem State.setKeyLevel_wait (key : Nibble) (p : Bool) : (s.setKeyLevel key p).wait = s.wait := rfl
@[simp] theorem State.setKeyLevel_status (key : Nibble) (p : Bool) : (s.setKeyLevel key p).status = s.status := rfl
@[simp] theorem State.setKeyLevel_last (key : Nibble) (p : Bool) : (s.setKeyLevel key p).last = s.last := rfl
@[simp] theorem State.setKeyLevel_unwritten (key : Nibble) (p : Bool) : (s.setKeyLevel key p).unwritten = s.unwritten := rfl
@[simp] theorem State.setKeyLevel_boot (key : Nibble) (p : Bool) : (s.setKeyLevel key p).boot = s.boot := rfl
@[simp] theorem State.setKeyLevel_cfg (key : Nibble) (p : Bool) : (s.setKeyLevel key p).cfg = s.cfg := rfl
@[simp] theorem State.setKeyLevel_script (key : Nibble) (p : Bool) : (s.setKeyLevel key p).script = s.script := rfl
@[simp] theorem State.setKeyLevel_randoms (key : Nibble) (p : Bool) : (s.setKeyLevel key p).randoms = s.randoms := rfl
@[simp] theorem State.setKeyLevel_draws (key : Nibble) (p : Bool) : (s.setKeyLevel key p).draws = s.draws := rfl

/-! ### `State.fillFirstVs` -/

@[simp] theorem State.fillFirstVs_pc (n : Nat) (f : Nat → Byte) : (s.fillFirstVs n f).pc = s.pc := rfl
@[simp] theorem State.fillFirstVs_index (n : Nat) (f : Nat → Byte) : (s.fillFirstVs n f).index = s.index := rfl
@[simp] theorem State.fillFirstVs_dt (n : Nat) (f : Nat → Byte) : (s.fillFirstVs n f).dt = s.dt := rfl
@[simp] theorem State.fillFirstVs_st (n : Nat) (f : Nat → Byte) : (s.fillFirstVs n f).st = s.st := rfl
@[simp] theorem State.fillFirstVs_stack (n : Nat) (f : Nat → Byte) : (s.fillFirstVs n f).stack = s.stack := rfl
@[simp] theorem State.fillFirstVs_mem (n : Nat) (f : Nat → Byte) : (s.fillFirstVs n f).mem = s.mem := rfl
@[simp] theorem State.fillFirstVs_fb (n : Nat) (f : Nat → Byte) : (s.fillFirstVs n f).fb = s.fb := rfl
@[simp] theorem State.fillFirstVs_keys (n : Nat) (f : Nat → Byte) : (s.fillFirstVs n f).keys = s.keys := rfl
@[simp] theorem State.fillFirstVs_wait (n : Nat) (f : Nat → Byte) : (s.fillFirstVs n f).wait = s.wait := rfl
@[simp] theorem State.fillFirstVs_status (n : Nat) (f : Nat → Byte) : (s.fillFirstVs n f).status = s.status := rfl
@[simp] theorem State.fillFirstVs_last (n : Nat) (f : Nat → Byte) : (s.fillFirstVs n f).last = s.last := rfl
@[simp] theorem State.fillFirstVs_boot (n : Nat) (f : Nat → Byte) : (s.fillFirstVs n f).boot = s.boot := rfl
@[simp] theorem State.fillFirstVs_cfg (n : Nat) (f : Nat → Byte) : (s.fillFirstVs n f).cfg = s.cfg := rfl
@[simp] theorem State.fillFirstVs_script (n : Nat) (f : Nat → Byte) : (s.fillFirstVs n f).script = s.script := rfl
@[simp] theorem State.fillFirstVs_randoms (n : Nat) (f : Nat → Byte) : (s.fillFirstVs n f).randoms = s.randoms := rfl
@[simp] theorem State.fillFirstVs_draws (n : Nat) (f : Nat → Byte) : (s.fillFirstVs n f).draws = s.draws := rfl

/-! ### `State.decay` -/

@[simp] theorem State.decay_v (k : Nat) : (s.decay k).v = s.v := rfl
@[simp] theorem State.decay_pc (k : Nat) : (s.decay k).pc = s.pc := rfl
@[simp] theorem State.decay_index (k : Nat) : (s.decay k).index = s.index := rfl
@[simp] theorem State.decay_dt (k : Nat) : (s.decay k).dt = if s.unwritten.dt then s.dt else decayTimer s.dt k := rfl
@[simp] theorem State.decay_st (k : Nat) : (s.decay k).st = if s.unwritten.st then s.st else decayTimer s.st k := rfl
@[simp] theorem State.decay_stack (k : Nat) : (s.decay k).stack = s.stack := rfl
@[simp] theorem State.decay_mem (k : Nat) : (s.decay k).mem = s.mem := rfl
@[simp] theorem State.decay_fb (k : Nat) : (s.decay k).fb = s.fb := rfl
@[simp] theorem State.decay_keys (k : Nat) : (s.decay k).keys = s.keys := rfl
@[simp] theorem State.decay_wait (k : Nat) : (s.decay k).wait = s.wait := rfl
@[simp] theorem State.decay_status (k : Nat) : (s.decay k).status = s.status := rfl
@[simp] theorem State.decay_last (k : Nat) : (s.decay k).last = s.last := rfl
@[simp] theorem State.decay_unwritten (k : Nat) : (s.decay k).unwritten = s.unwritten := rfl
@[simp] theorem State.decay_boot (k : Nat) : (s.decay k).boot = s.boot := rfl
@[simp] theorem State.decay_cfg (k : Nat) : (s.decay k).cfg = s.cfg := rfl
@[simp] theorem State.decay_script (k : Nat) : (s.decay k).script = s.script := rfl
@[simp] theorem State.decay_randoms (k : Nat) : (s.decay k).randoms = s.randoms := rfl
@[simp] theorem State.decay_draws (k : Nat) : (s.decay k).draws = s.draws := rfl

/-! ### `State.started` -/

@[simp] theorem State.started_v (k : Nat) : (s.started k).v = s.v := rfl
@[simp] theorem State.started_pc (k : Nat) : (s.started k).pc = s.pc := rfl
@[simp] theorem State.started_index (k : Nat) : (s.started k).index = s.index := rfl
@[simp] theorem State.started_dt (k : Nat) : (s.started k).dt = (s.decay k).dt := rfl
@[simp] theorem State.started_st (k : Nat) : (s.started k).st = (s.decay k).st := rfl
@[simp] theorem State.started_stack (k : Nat) : (s.started k).stack = s.stack := rfl
@[simp] theorem State.started_mem (k : Nat) : (s.started k).mem = s.mem := rfl
@[simp] theorem State.started_fb (k : Nat) : (s.started k).fb = s.fb := rfl
@[simp] theorem State.started_keys (k : Nat) : (s.started k).keys = s.keys := rfl
@[simp] theorem State.started_wait (k : Nat) : (s.started k).wait = s.wait := rfl
@[simp] theorem State.started_status (k : Nat) : (s.started k).status = s.status := rfl
@[simp] theorem State.started_last (k : Nat) : (s.started k).last = s.last := rfl
@[simp] theorem State.started_unwritten (k : Nat) : (s.started k).unwritten = s.unwritten := rfl
@[simp] theorem State.started_boot (k : Nat) : (s.started k).boot = .ticked := rfl
@[simp] theorem State.started_cfg (k : Nat) : (s.started k).cfg = s.cfg := rfl
@[simp] theorem State.started_script (k : Nat) : (s.started k).script = s.script := rfl
@[simp] theorem State.started_randoms (k : Nat) : (s.started k).randoms = s.randoms := rfl
@[simp] theorem State.started_draws (k : Nat) : (s.started k).draws = s.draws := rfl

/-! ### `State.fetched` -/

@[simp] theorem State.fetched_v (l : Option Instr) : (s.fetched l).v = s.v := rfl
@[simp] theorem State.fetched_pc (l : Option Instr) : (s.fetched l).pc = s.pc + 2#16 := rfl
@[simp] theorem State.fetched_index (l : Option Instr) : (s.fetched l).index = s.index := rfl
@[simp] theorem State.fetched_dt (l : Option Instr) : (s.fetched l).dt = s.dt := rfl
@[simp] theorem State.fetched_st (l : Option Instr) : (s.fetched l).st = s.st := rfl
@[simp] theorem State.fetched_stack (l : Option Instr) : (s.fetched l).stack = s.stack := rfl
@[simp] theorem State.fetched_mem (l : Option Instr) : (s.fetched l).mem = s.mem := rfl
@[simp] theorem State.fetched_fb (l : Option Instr) : (s.fetched l).fb = s.fb := rfl
@[simp] theorem State.fetched_keys (l : Option Instr) : (s.fetched l).keys = s.keys := rfl
@[simp] theorem State.fetched_wait (l : Option Instr) : (s.fetched l).wait = s.wait := rfl
@[simp] theorem State.fetched_status (l : Option Instr) : (s.fetched l).status = s.status := rfl
@[simp] theorem State.fetched_last (l : Option Instr) : (s.fetched l).last = l := rfl
@[simp] theorem State.fetched_unwritten (l : Option Instr) : (s.fetched l).unwritten = s.unwritten := rfl
@[simp] theorem State.fetched_boot (l : Option Instr) : (s.fetched l).boot = s.boot := rfl
@[simp] theorem State.fetched_cfg (l : Option Instr) : (s.fetched l).cfg = s.cfg := rfl
@[simp] theorem State.fetched_script (l : Option Instr) : (s.fetched l).script = s.script := rfl
@[simp] theorem State.fetched_randoms (l : Option Instr) : (s.fetched l).randoms = s.randoms := rfl
@[simp] theorem State.fetched_draws (l : Option Instr) : (s.fetched l).draws = s.draws := rfl

/-! ### `State.abandoned` -/

@[simp] theorem State.abandoned_v : (s.abandoned).v = s.v := rfl
@[simp] theorem State.abandoned_pc : (s.abandoned).pc = s.pc := rfl
@[simp] theorem State.abandoned_index : (s.abandoned).index = s.index := rfl
@[simp] theorem State.abandoned_dt : (s.abandoned).dt = s.dt := rfl
@[simp] theorem State.abandoned_st : (s.abandoned).st = s.st := rfl
@[simp] theorem State.abandoned_stack : (s.abandoned).stack = s.stack := rfl
@[simp] theorem State.abandoned_mem : (s.abandoned).mem = s.mem := rfl
@[simp] theorem State.abandoned_fb : (s.abandoned).fb = s.fb := rfl
@[simp] theorem State.abandoned_keys : (s.abandoned).keys = s.keys := rfl
@[simp] theorem State.abandoned_wait : (s.abandoned).wait = none := rfl
@[simp] theorem State.abandoned_status : (s.abandoned).status = .abandoned := rfl
@[simp] theorem State.abandoned_last : (s.abandoned).last = s.last := rfl
@[simp] theorem State.abandoned_unwritten : (s.abandoned).unwritten = s.unwritten := rfl
@[simp] theorem State.abandoned_boot : (s.abandoned).boot = s.boot := rfl
@[simp] theorem State.abandoned_cfg : (s.abandoned).cfg = s.cfg := rfl
@[simp] theorem State.abandoned_script : (s.abandoned).script = s.script := rfl
@[simp] theorem State.abandoned_randoms : (s.abandoned).randoms = s.randoms := rfl
@[simp] theorem State.abandoned_draws : (s.abandoned).draws = s.draws := rfl

/-! ### `State.drawn` -/

@[simp] theorem State.drawn_v : (s.drawn).v = s.v := rfl
@[simp] theorem State.drawn_pc : (s.drawn).pc = s.pc := rfl
@[simp] theorem State.drawn_index : (s.drawn).index = s.index := rfl
@[simp] theorem State.drawn_dt : (s.drawn).dt = s.dt := rfl
@[simp] theorem State.drawn_st : (s.drawn).st = s.st := rfl
@[simp] theorem State.drawn_stack : (s.drawn).stack = s.stack := rfl
@[simp] theorem State.drawn_mem : (s.drawn).mem = s.mem := rfl
@[simp] theorem State.drawn_fb : (s.drawn).fb = s.fb := rfl
@[simp] theorem State.drawn_keys : (s.drawn).keys = s.keys := rfl
@[simp] theorem State.drawn_wait : (s.drawn).wait = s.wait := rfl
@[simp] theorem State.drawn_status : (s.drawn).status = s.status := rfl
@[simp] theorem State.drawn_last : (s.drawn).last = s.last := rfl
@[simp] theorem State.drawn_unwritten : (s.drawn).unwritten = s.unwritten := rfl
@[simp] theorem State.drawn_boot : (s.drawn).boot = s.boot := rfl
@[simp] theorem State.drawn_cfg : (s.drawn).cfg = s.cfg := rfl
@[simp] theorem State.drawn_script : (s.drawn).script = s.script := rfl
@[simp] theorem State.drawn_randoms : (s.drawn).randoms = s.randoms := rfl
@[simp] theorem State.drawn_draws : (s.drawn).draws = s.draws + 1 := rfl

/-! ### `State.skipIf` -/

theorem State.skipIf_eq (c : Bool) : s.skipIf c = { s with pc := if c then s.pc + 2#16 else s.pc } := by
  cases c <;> rfl

@[simp] theorem State.skipIf_pc (c : Bool) : (s.skipIf c).pc = if c then s.pc + 2#16 else s.pc := by
  cases c <;> rfl

end Sys2Proof.Machine
end

