-- ==== Sys2Proof/Laws/Registers.lean ====
section
/-! SUPPORT. What reading and writing registers can do: reads after writes, and one law per reading
operation. -/

namespace Sys2Proof.Machine

open Sys2Proof.Safety

variable (s : State)

/-! ### Reads after writes -/

theorem State.getV_setV (x r : Nibble) (b : Byte) : (s.setV x b).getV r = if r = x then b else s.getV r := by
  simp only [State.getV, State.setV_v, Vector.getElem_set, BitVec.toNat_inj, eq_comm (a := x)]

theorem State.vUnwritten_setV (x r : Nibble) (b : Byte) :
    (s.setV x b).vUnwritten r = if r = x then false else s.vUnwritten r := by
  simp only [State.vUnwritten, State.setV_unwritten, Vector.getElem_set, BitVec.toNat_inj, eq_comm (a := x)]

@[simp] theorem State.getV_setV_self (x : Nibble) (b : Byte) : (s.setV x b).getV x = b := by
  simp [State.getV_setV]

@[simp] theorem State.vUnwritten_setV_self (x : Nibble) (b : Byte) : (s.setV x b).vUnwritten x = false := by
  simp [State.vUnwritten_setV]

theorem State.holds_setV (x : Nibble) (b : Byte) : Holds (s.setV x b) x b :=
  ⟨s.getV_setV_self x b, s.vUnwritten_setV_self x b⟩

theorem State.keyLevel_setKeyLevel (key other : Nibble) (p : Bool) :
    (s.setKeyLevel key p).keyLevel other = if other = key then p else s.keyLevel other := by
  simp only [State.keyLevel, State.setKeyLevel_keys, Vector.getElem_set, BitVec.toNat_inj, eq_comm (a := key)]

theorem State.getV_congr {s t : State} (h : t.v = s.v) (r : Nibble) : t.getV r = s.getV r := by
  simp [State.getV, h]

theorem State.vUnwritten_congr {s t : State} (h : t.unwritten.v = s.unwritten.v) (r : Nibble) :
    t.vUnwritten r = s.vUnwritten r := by
  simp [State.vUnwritten, h]

theorem State.getV_fillFirstVs (n : Nat) (f : Nat → Byte) (r : Nibble) :
    (s.fillFirstVs n f).getV r = if r.toNat < n then f r.toNat else s.getV r := by
  simp only [State.getV, State.fillFirstVs, Vector.getElem_ofFn]

theorem State.vUnwritten_fillFirstVs (n : Nat) (f : Nat → Byte) (r : Nibble) :
    (s.fillFirstVs n f).vUnwritten r = if r.toNat < n then false else s.vUnwritten r := by
  simp only [State.vUnwritten, State.fillFirstVs, Vector.getElem_ofFn]

theorem State.fillFirstVs_unwritten_rest (n : Nat) (f : Nat → Byte) :
    (s.fillFirstVs n f).unwritten =
      { s.unwritten with v := (s.fillFirstVs n f).unwritten.v } := rfl

/-! ### The reading operations -/

theorem readV_written {s : State} {x : Nibble} (h : Written s x) (k : Byte → Out) :
    readV x s k = k (s.getV x) := by
  simp [readV, h]

theorem readV_unwritten {s : State} {x : Nibble} (h : s.vUnwritten x = true) (k : Byte → Out) :
    readV x s k = raise (.uninitialised (.v x)) s := by
  simp [readV, h]

theorem readXY_written {s : State} {x y : Nibble} (hx : Written s x) (hy : Written s y)
    (k : Byte → Byte → Out) : readXY x y s k = k (s.getV x) (s.getV y) := by
  simp [readXY, readV_written hx, readV_written hy]

theorem readIndex_written {s : State} (h : s.unwritten.index = false) (k : Word → Out) :
    readIndex s k = k s.index := by
  simp [readIndex, h]

theorem readIndex_unwritten {s : State} (h : s.unwritten.index = true) (k : Word → Out) :
    readIndex s k = raise (.uninitialised .index) s := by
  simp [readIndex, h]

theorem readDT_written {s : State} (h : s.unwritten.dt = false) (k : Byte → Out) : readDT s k = k s.dt := by
  simp [readDT, h]

theorem readDT_unwritten {s : State} (h : s.unwritten.dt = true) (k : Byte → Out) :
    readDT s k = raise (.uninitialised .dt) s := by
  simp [readDT, h]

theorem inBounds_true {i : Word} {n : Nat} {s : State} (h : i.toNat + n ≤ s.cfg.memSize) (k : Out) :
    inBounds i n s k = k := by
  simp [inBounds, h]

theorem inBounds_false {i : Word} {n : Nat} {s : State} (h : s.cfg.memSize < i.toNat + n) (k : Out) :
    inBounds i n s k = raise (.boundsMemory i.toNat) s := by
  simp [inBounds, Nat.not_le.mpr h]

/-- The first n marks hold no unwritten register exactly when every V register below n is written. -/
theorem firstUnwritten_none {n : Nat} {s : State} (h : ∀ r : Nibble, r.toNat < n → Written s r) :
    firstUnwritten n s = none := by
  simp only [firstUnwritten, Option.map_eq_none_iff, List.findIdx?_eq_none_iff, id_eq]
  intro b hb
  obtain ⟨j, hj, rfl⟩ := List.mem_iff_getElem.mp hb
  simp only [List.length_take, Vector.length_toList, Nat.lt_min] at hj
  have := h (BitVec.ofNat 4 j) (by rw [BitVec.toNat_ofNat, Nat.mod_eq_of_lt (by omega)]; exact hj.1)
  simpa [Written, State.vUnwritten, Nat.mod_eq_of_lt (show j < 16 by omega)] using this

/-- The lowest unwritten register below n is the first one found. -/
theorem firstUnwritten_some {n : Nat} {s : State} {y : Nibble} (hn : y.toNat < n)
    (hy : s.vUnwritten y = true) (h : ∀ r : Nibble, r < y → Written s r) : firstUnwritten n s = some y := by
  have hl := y.isLt
  simp only [firstUnwritten, Option.map_eq_some_iff]
  refine ⟨y.toNat, ?_, by simp⟩
  rw [List.findIdx?_eq_some_iff_getElem]
  refine ⟨by simp; omega, by simpa [State.vUnwritten] using hy, fun j hj => ?_⟩
  have := h (BitVec.ofNat 4 j) (by rw [BitVec.lt_def, BitVec.toNat_ofNat, Nat.mod_eq_of_lt (by omega)]; exact hj)
  simpa [Written, State.vUnwritten, Nat.mod_eq_of_lt (show j < 16 by omega)] using this

theorem readFirstVs_written {n : Nat} {s : State} (h : ∀ r : Nibble, r.toNat < n → Written s r)
    (k : List Byte → Out) : readFirstVs n s k = k (s.v.toList.take n) := by
  simp [readFirstVs, firstUnwritten_none h]

/-! ### What a reading operation answers, if not a fault -/

theorem readV_next {x : Nibble} {k : Byte → Out} {s t : State} (h : readV x s k = .next t) :
    Written s x ∧ k (s.getV x) = .next t := by
  unfold readV at h
  split at h
  · simp [raise] at h
  · rename_i hw
    exact ⟨Bool.eq_false_iff.mpr hw, h⟩

theorem readXY_next {x y : Nibble} {k : Byte → Byte → Out} {s t : State} (h : readXY x y s k = .next t) :
    Written s x ∧ Written s y ∧ k (s.getV x) (s.getV y) = .next t := by
  obtain ⟨hx, h⟩ := readV_next h
  exact ⟨hx, readV_next h⟩

theorem readIndex_next {k : Word → Out} {s t : State} (h : readIndex s k = .next t) :
    s.unwritten.index = false ∧ k s.index = .next t := by
  unfold readIndex at h
  split at h
  · simp [raise] at h
  · rename_i hw
    exact ⟨Bool.eq_false_iff.mpr hw, h⟩

theorem readDT_next {k : Byte → Out} {s t : State} (h : readDT s k = .next t) :
    s.unwritten.dt = false ∧ k s.dt = .next t := by
  unfold readDT at h
  split at h
  · simp [raise] at h
  · rename_i hw
    exact ⟨Bool.eq_false_iff.mpr hw, h⟩

theorem inBounds_next {i : Word} {n : Nat} {k : Out} {s t : State} (h : inBounds i n s k = .next t) :
    i.toNat + n ≤ s.cfg.memSize ∧ k = .next t := by
  unfold inBounds at h
  split at h
  · exact ⟨‹_›, h⟩
  · simp [raise] at h

theorem readFirstVs_next {n : Nat} {k : List Byte → Out} {s t : State} (h : readFirstVs n s k = .next t) :
    firstUnwritten n s = none ∧ k (s.v.toList.take n) = .next t := by
  unfold readFirstVs at h
  split at h
  · simp [raise] at h
  · exact ⟨‹_›, h⟩

theorem readKeyOperand_next {x : Nibble} {k : Nibble → Out} {s t : State}
    (h : readKeyOperand x s k = .next t) :
    Written s x ∧ (s.getV x).toNat < 16 ∧ k (BitVec.ofNat 4 (s.getV x).toNat) = .next t := by
  obtain ⟨hx, h⟩ := readV_next h
  split at h
  · simp [raise] at h
  · exact ⟨hx, by omega, h⟩

theorem pushStack_next {a : Word} {k : State → Out} {s t : State} (h : pushStack a s k = .next t) :
    s.stack.length < s.cfg.stackCap ∧ k { s with stack := a :: s.stack } = .next t := by
  unfold pushStack at h
  split at h
  · simp [raise] at h
  · exact ⟨by omega, h⟩

theorem popStack_next {k : Word → State → Out} {s t : State} (h : popStack s k = .next t) :
    ∃ a rest, s.stack = a :: rest ∧ k a { s with stack := rest } = .next t := by
  unfold popStack at h
  split at h
  · simp [raise] at h
  · exact ⟨_, _, ‹_›, h⟩

/-- A draw of a random byte goes on with some byte, and has changed nothing but the source. -/
theorem drawRandom_eq (s : State) (k : Byte → State → Out) :
    ∃ r rs d, drawRandom s k = k r { s with randoms := rs, draws := d } := by
  unfold drawRandom
  split
  · exact ⟨_, _, _, rfl⟩
  · exact ⟨_, s.randoms, _, rfl⟩

end Sys2Proof.Machine
end

