-- ==== Sys2Proof/Laws/Handlers.lean ====
section
/-! SUPPORT. What each handler can answer as a next state, said once: the operands it read held values,
its check passed, and the state is the one its rule gives. -/

namespace Sys2Proof.Machine

open Sys2Proof.Safety

variable {s t : State}

/-! ### Control -/

theorem execReturn_next (h : execReturn s = .next t) :
    ∃ a rest, s.stack = a :: rest ∧ t = { s with stack := rest, pc := a } := by
  obtain ⟨a, rest, hs, h⟩ := popStack_next h
  exact ⟨a, rest, hs, by injection h with h; exact h.symm⟩

theorem execCallSub_next {nnn : Addr12} (h : execCallSub nnn s = .next t) :
    s.stack.length < s.cfg.stackCap ∧ t = { s with stack := s.pc :: s.stack, pc := addrOperand nnn } := by
  obtain ⟨hs, h⟩ := pushStack_next h
  exact ⟨hs, by injection h with h; exact h.symm⟩

theorem execJumpToAddrNNNPlusV0_next {nnn : Addr12} (h : execJumpToAddrNNNPlusV0 nnn s = .next t) :
    Written s 0#4 ∧ nnn.toNat + (s.getV 0#4).toNat < s.cfg.memSize ∧
      t = s.jump (BitVec.ofNat 16 (nnn.toNat + (s.getV 0#4).toNat)) := by
  obtain ⟨hw, h⟩ := readV_next h
  split at h
  · simp [raise] at h
  · exact ⟨hw, by omega, by injection h with h; exact h.symm⟩

/-! ### Skips -/

theorem execEqNN_next {x : Nibble} {nn : Byte} (h : execEqNN x nn s = .next t) :
    Written s x ∧ t = s.skipIf (s.getV x == nn) := by
  obtain ⟨hx, h⟩ := readV_next h
  exact ⟨hx, by injection h with h; exact h.symm⟩

theorem execNotEqNN_next {x : Nibble} {nn : Byte} (h : execNotEqNN x nn s = .next t) :
    Written s x ∧ t = s.skipIf (s.getV x != nn) := by
  obtain ⟨hx, h⟩ := readV_next h
  exact ⟨hx, by injection h with h; exact h.symm⟩

theorem execEqY_next {x y : Nibble} (h : execEqY x y s = .next t) :
    Written s x ∧ Written s y ∧ t = s.skipIf (s.getV x == s.getV y) := by
  obtain ⟨hx, hy, h⟩ := readXY_next h
  exact ⟨hx, hy, by injection h with h; exact h.symm⟩

theorem execNotEqY_next {x y : Nibble} (h : execNotEqY x y s = .next t) :
    Written s x ∧ Written s y ∧ t = s.skipIf (s.getV x != s.getV y) := by
  obtain ⟨hx, hy, h⟩ := readXY_next h
  exact ⟨hx, hy, by injection h with h; exact h.symm⟩

theorem execSkipIfKeyInXIsPressed_next {x : Nibble} (h : execSkipIfKeyInXIsPressed x s = .next t) :
    Written s x ∧ (s.getV x).toNat < 16 ∧
      t = s.skipIf (s.keyLevel (BitVec.ofNat 4 (s.getV x).toNat)) := by
  obtain ⟨hx, hk, h⟩ := readKeyOperand_next h
  exact ⟨hx, hk, by injection h with h; exact h.symm⟩

theorem execSkipIfKeyInXIsNotPressed_next {x : Nibble} (h : execSkipIfKeyInXIsNotPressed x s = .next t) :
    Written s x ∧ (s.getV x).toNat < 16 ∧
      t = s.skipIf (!s.keyLevel (BitVec.ofNat 4 (s.getV x).toNat)) := by
  obtain ⟨hx, hk, h⟩ := readKeyOperand_next h
  exact ⟨hx, hk, by injection h with h; exact h.symm⟩

/-! ### Registers and ALU -/

theorem execAddNNToX_next {x : Nibble} {nn : Byte} (h : execAddNNToX x nn s = .next t) :
    Written s x ∧ t = s.setV x (s.getV x + nn) := by
  obtain ⟨hx, h⟩ := readV_next h
  exact ⟨hx, by injection h with h; exact h.symm⟩

theorem execStoreYInX_next {x y : Nibble} (h : execStoreYInX x y s = .next t) :
    Written s y ∧ t = s.setV x (s.getV y) := by
  obtain ⟨hy, h⟩ := readV_next h
  exact ⟨hy, by injection h with h; exact h.symm⟩

theorem execOrYToX_next {x y : Nibble} (h : execOrYToX x y s = .next t) :
    Written s x ∧ Written s y ∧ t = s.setV x (s.getV x ||| s.getV y) := by
  obtain ⟨hx, hy, h⟩ := readXY_next h
  exact ⟨hx, hy, by injection h with h; exact h.symm⟩

theorem execAndYToX_next {x y : Nibble} (h : execAndYToX x y s = .next t) :
    Written s x ∧ Written s y ∧ t = s.setV x (s.getV x &&& s.getV y) := by
  obtain ⟨hx, hy, h⟩ := readXY_next h
  exact ⟨hx, hy, by injection h with h; exact h.symm⟩

theorem execXorYToX_next {x y : Nibble} (h : execXorYToX x y s = .next t) :
    Written s x ∧ Written s y ∧ t = s.setV x (s.getV x ^^^ s.getV y) := by
  obtain ⟨hx, hy, h⟩ := readXY_next h
  exact ⟨hx, hy, by injection h with h; exact h.symm⟩

theorem execAddYToX_next {x y : Nibble} (h : execAddYToX x y s = .next t) :
    Written s x ∧ Written s y ∧
      t = s.setResultThenFlag x (s.getV x + s.getV y) (carryFlag (s.getV x) (s.getV y)) := by
  obtain ⟨hx, hy, h⟩ := readXY_next h
  exact ⟨hx, hy, by injection h with h; exact h.symm⟩

theorem execSubYFromX_next {x y : Nibble} (h : execSubYFromX x y s = .next t) :
    Written s x ∧ Written s y ∧
      t = s.setResultThenFlag x (s.getV x - s.getV y) (noBorrowFlag (s.getV x) (s.getV y)) := by
  obtain ⟨hx, hy, h⟩ := readXY_next h
  exact ⟨hx, hy, by injection h with h; exact h.symm⟩

theorem execSubXFromY_next {x y : Nibble} (h : execSubXFromY x y s = .next t) :
    Written s x ∧ Written s y ∧
      t = s.setResultThenFlag x (s.getV y - s.getV x) (noBorrowFlag (s.getV y) (s.getV x)) := by
  obtain ⟨hx, hy, h⟩ := readXY_next h
  exact ⟨hx, hy, by injection h with h; exact h.symm⟩

theorem execStoreYShiftedRightInX_next {x y : Nibble} (h : execStoreYShiftedRightInX x y s = .next t) :
    Written s y ∧ t = s.setResultThenFlag x (s.getV y >>> 1) (lowBitFlag (s.getV y)) := by
  obtain ⟨hy, h⟩ := readV_next h
  exact ⟨hy, by injection h with h; exact h.symm⟩

theorem execStoreYShiftedLeftInX_next {x y : Nibble} (h : execStoreYShiftedLeftInX x y s = .next t) :
    Written s y ∧ t = s.setResultThenFlag x (s.getV y <<< 1) (highBitFlag (s.getV y)) := by
  obtain ⟨hy, h⟩ := readV_next h
  exact ⟨hy, by injection h with h; exact h.symm⟩

/-- The random draw always answers a next state: some byte, masked, and nothing else but the source. -/
theorem execSetXToRandomNumWithMaskNN_eq (x : Nibble) (nn : Byte) (s : State) :
    ∃ r rs d, execSetXToRandomNumWithMaskNN x nn s =
      .next ({ s with randoms := rs, draws := d }.setV x (r &&& nn)) := by
  obtain ⟨r, rs, d, h⟩ := drawRandom_eq s fun r t => .next (t.setV x (r &&& nn))
  exact ⟨r, rs, d, h⟩

/-! ### Index and memory -/

theorem execAddXToI_next {x : Nibble} (h : execAddXToI x s = .next t) :
    Written s x ∧ s.unwritten.index = false ∧ t = s.setIndex (s.index + (s.getV x).setWidth 16) := by
  obtain ⟨hx, h⟩ := readV_next h
  obtain ⟨hi, h⟩ := readIndex_next h
  exact ⟨hx, hi, by injection h with h; exact h.symm⟩

theorem execSetIToMemAddrOfSpriteInX_next {x : Nibble} (h : execSetIToMemAddrOfSpriteInX x s = .next t) :
    Written s x ∧ t = s.setIndex (BitVec.ofNat 16 ((s.getV x).toNat * 5)) := by
  obtain ⟨hx, h⟩ := readV_next h
  exact ⟨hx, by injection h with h; exact h.symm⟩

theorem execStoreBCDOfXInI_next {x : Nibble} (h : execStoreBCDOfXInI x s = .next t) :
    Written s x ∧ s.unwritten.index = false ∧ s.index.toNat + 3 ≤ s.cfg.memSize ∧
      t = s.storeBytes s.index.toNat (bcdDigits (s.getV x)) := by
  obtain ⟨hx, h⟩ := readV_next h
  obtain ⟨hi, h⟩ := readIndex_next h
  obtain ⟨hb, h⟩ := inBounds_next h
  exact ⟨hx, hi, hb, by injection h with h; exact h.symm⟩

theorem execStore0ToXInI_next {x : Nibble} (h : execStore0ToXInI x s = .next t) :
    (x = 0 ∧ t = s) ∨
      (s.unwritten.index = false ∧ firstUnwritten x.toNat s = none ∧
        s.index.toNat + x.toNat ≤ s.cfg.memSize ∧
        t = s.storeBytes s.index.toNat (s.v.toList.take x.toNat)) := by
  unfold execStore0ToXInI at h
  split at h
  · exact .inl ⟨‹_›, by injection h with h; exact h.symm⟩
  · obtain ⟨hi, h⟩ := readIndex_next h
    obtain ⟨hw, h⟩ := readFirstVs_next h
    obtain ⟨hb, h⟩ := inBounds_next h
    exact .inr ⟨hi, hw, hb, by injection h with h; exact h.symm⟩

theorem execFill0ToXWithValueInAddrI_next {x : Nibble} (h : execFill0ToXWithValueInAddrI x s = .next t) :
    (x = 0 ∧ t = s) ∨
      (s.unwritten.index = false ∧ s.index.toNat + x.toNat ≤ s.cfg.memSize ∧
        t = s.fillFirstVs x.toNat fun j => s.byteAt (s.index.toNat + j)) := by
  unfold execFill0ToXWithValueInAddrI at h
  split at h
  · exact .inl ⟨‹_›, by injection h with h; exact h.symm⟩
  · obtain ⟨hi, h⟩ := readIndex_next h
    obtain ⟨hb, h⟩ := inBounds_next h
    exact .inr ⟨hi, hb, by injection h with h; exact h.symm⟩

/-! ### Draw -/

theorem execDrawSpriteInXY_next {x y n : Nibble} (h : execDrawSpriteInXY x y n s = .next t) :
    Written s x ∧ Written s y ∧
      ((n = 0 ∧ t = s.setV regVF (flagByte false)) ∨
        (s.unwritten.index = false ∧ s.index.toNat + n.toNat ≤ s.cfg.memSize ∧
          t = { s with fb := (drawSprite s (s.getV x) (s.getV y) (s.bytesAt s.index.toNat n.toNat)).1 }.setV
            regVF (flagByte (drawSprite s (s.getV x) (s.getV y) (s.bytesAt s.index.toNat n.toNat)).2))) := by
  obtain ⟨hx, hy, h⟩ := readXY_next h
  refine ⟨hx, hy, ?_⟩
  split at h
  · exact .inl ⟨‹_›, by injection h with h; exact h.symm⟩
  · obtain ⟨hi, h⟩ := readIndex_next h
    obtain ⟨hb, h⟩ := inBounds_next h
    exact .inr ⟨hi, hb, by injection h with h; exact h.symm⟩

/-! ### Keys and timers -/

theorem execStoreValDTInX_next {x : Nibble} (h : execStoreValDTInX x s = .next t) :
    s.unwritten.dt = false ∧ t = s.setV x s.dt := by
  obtain ⟨hd, h⟩ := readDT_next h
  exact ⟨hd, by injection h with h; exact h.symm⟩

theorem execSetDTToX_next {x : Nibble} (h : execSetDTToX x s = .next t) :
    Written s x ∧ t = s.setDT (s.getV x) := by
  obtain ⟨hx, h⟩ := readV_next h
  exact ⟨hx, by injection h with h; exact h.symm⟩

theorem execSetSTToX_next {x : Nibble} (h : execSetSTToX x s = .next t) :
    Written s x ∧ t = s.setST (s.getV x) := by
  obtain ⟨hx, h⟩ := readV_next h
  exact ⟨hx, by injection h with h; exact h.symm⟩

end Sys2Proof.Machine
end

