-- ==== Sys2Proof/Laws/Memory.lean ====
section
/-! SUPPORT. The laws of memory: a read after a write gives the byte written, a write leaves every other
address alone, and every memory operation keeps the canonical form. -/

namespace Sys2Proof.Machine

open Sys2Proof.Safety

variable (font : Font) (m : Memory)

/-! ### Reads after writes, in any memory -/

theorem Memory.read_erase_self (a : Nat) : (m.erase a).read font a = launchByte font a := by
  induction m with
  | nil => rfl
  | cons c rest ih =>
    by_cases h : c.1 = a
    · simpa [Memory.erase, h] using ih
    · simpa [Memory.erase, h, Memory.read] using ih

theorem Memory.read_erase_other {a a' : Nat} (hne : a' ≠ a) : (m.erase a).read font a' = m.read font a' := by
  induction m with
  | nil => rfl
  | cons c rest ih =>
    by_cases h : c.1 = a
    · simpa [Memory.erase, h, Memory.read, Ne.symm hne] using ih
    · by_cases h' : c.1 = a'
      · rw [Memory.erase, List.filter_cons_of_pos (by simpa using h)]
        simp [Memory.read, h']
      · simpa [Memory.erase, h, Memory.read, h'] using ih

theorem Memory.read_insert {a : Nat} (b : Byte) (a' : Nat) (h : ∀ c ∈ m, c.1 ≠ a) :
    (m.insert a b).read font a' = if a' = a then b else m.read font a' := by
  induction m with
  | nil => simp [Memory.insert, Memory.read, eq_comm]
  | cons c rest ih =>
    have hc : c.1 ≠ a := h c (by simp)
    have ih := ih fun d hd => h d (by simp [hd])
    simp only [Memory.insert]
    split
    · simp [Memory.read, eq_comm]
    · by_cases hca : c.1 = a'
      · have : a' ≠ a := hca ▸ hc
        simp [Memory.read, hca, this]
      · simp [Memory.read, hca, ih]

theorem Memory.mem_erase_ne {a : Nat} : ∀ c ∈ m.erase a, c.1 ≠ a := by
  intro c hc
  simp only [Memory.erase, List.mem_filter, bne_iff_ne] at hc
  exact hc.2

/-- A write gives its byte back at its address and leaves every other address as it was. -/
theorem Memory.read_write (a a' : Nat) (b : Byte) :
    (m.write font a b).read font a' = if a' = a then b else m.read font a' := by
  unfold Memory.write
  split
  · next hb =>
    split
    · next ha => subst ha; rw [Memory.read_erase_self, hb]
    · next ha => exact Memory.read_erase_other font m ha
  · rw [Memory.read_insert font _ b a' (Memory.mem_erase_ne m)]
    split
    · rfl
    · next ha => exact Memory.read_erase_other font m ha

/-! ### The canonical form -/

theorem Memory.wf_iff (cfg : Config) : m.wf cfg = true ↔
    m.Pairwise (fun c d => c.1 < d.1) ∧ ∀ c ∈ m, c.1 < cfg.memSize ∧ c.2 ≠ launchByte cfg.font c.1 := by
  simp [Memory.wf]

theorem Memory.wf_nil (cfg : Config) : Memory.wf cfg [] = true := rfl

theorem Memory.mem_insert {a : Nat} {b : Byte} {c : Host.Cell} (h : c ∈ m.insert a b) :
    c = (a, b) ∨ c ∈ m := by
  induction m with
  | nil => simpa [Memory.insert] using h
  | cons d rest ih =>
    simp only [Memory.insert] at h
    split at h
    · simpa using h
    · rcases List.mem_cons.mp h with rfl | h
      · simp
      · rcases ih h with rfl | h
        · simp
        · simp [h]

theorem Memory.pairwise_insert {a : Nat} {b : Byte} (hm : m.Pairwise fun c d => c.1 < d.1)
    (h : ∀ c ∈ m, c.1 ≠ a) : (m.insert a b).Pairwise fun c d => c.1 < d.1 := by
  induction m with
  | nil => simp [Memory.insert]
  | cons c rest ih =>
    rw [List.pairwise_cons] at hm
    have hc : c.1 ≠ a := h c (by simp)
    simp only [Memory.insert]
    split
    · next hlt =>
      refine List.pairwise_cons.mpr ⟨fun d hd => ?_, List.pairwise_cons.mpr hm⟩
      rcases List.mem_cons.mp hd with rfl | hd
      · exact hlt
      · exact hlt.trans (hm.1 d hd)
    · next hlt =>
      refine List.pairwise_cons.mpr ⟨fun d hd => ?_, ih hm.2 fun d hd => h d (by simp [hd])⟩
      rcases Memory.mem_insert rest hd with rfl | hd
      · show c.1 < a
        omega
      · exact hm.1 d hd

/-- A write inside memory keeps the canonical form. -/
theorem Memory.wf_write {cfg : Config} {m : Memory} (hm : m.wf cfg = true) {a : Nat} (b : Byte)
    (ha : a < cfg.memSize) : (m.write cfg.font a b).wf cfg = true := by
  rw [Memory.wf_iff] at hm ⊢
  have he : (m.erase a).Pairwise fun c d => c.1 < d.1 := hm.1.filter _
  have hall : ∀ c ∈ m.erase a, c.1 < cfg.memSize ∧ c.2 ≠ launchByte cfg.font c.1 :=
    fun c hc => hm.2 c (List.mem_of_mem_filter hc)
  unfold Memory.write
  split
  · exact ⟨he, hall⟩
  · next hb =>
    refine ⟨Memory.pairwise_insert _ he (Memory.mem_erase_ne m), fun c hc => ?_⟩
    rcases Memory.mem_insert _ hc with rfl | hc
    · exact ⟨ha, hb⟩
    · exact hall c hc

/-! ### On the state -/

theorem State.byteAt_congr {s t : State} (hm : t.mem = s.mem) (hc : t.cfg = s.cfg) (a : Nat) :
    t.byteAt a = s.byteAt a := by
  simp [State.byteAt, hm, hc]

theorem State.byteAt_storeByte (s : State) (a a' : Nat) (b : Byte) :
    (s.storeByte a b).byteAt a' = if a' = a then b else s.byteAt a' :=
  Memory.read_write _ _ a a' b

/-- Storing bytes changes memory and nothing else. -/
theorem State.storeBytes_eq (s : State) (a : Nat) (bs : List Byte) :
    s.storeBytes a bs = { s with mem := (s.storeBytes a bs).mem } := by
  induction bs generalizing s a with
  | nil => rfl
  | cons b rest ih =>
    simp only [State.storeBytes]
    rw [ih (s.storeByte a b) (a + 1)]
    rfl

theorem State.storeBytes_cfg (s : State) (a : Nat) (bs : List Byte) : (s.storeBytes a bs).cfg = s.cfg := by
  rw [State.storeBytes_eq]

/-- A read after stores: the byte stored at that address, or what was there. -/
theorem State.byteAt_storeBytes (s : State) (a a' : Nat) (bs : List Byte) :
    (s.storeBytes a bs).byteAt a' =
      if a ≤ a' ∧ a' < a + bs.length then bs.getD (a' - a) 0 else s.byteAt a' := by
  induction bs generalizing s a with
  | nil => simp [State.storeBytes]
  | cons b rest ih =>
    simp only [State.storeBytes, ih, State.byteAt_storeByte, List.length_cons]
    by_cases h1 : a + 1 ≤ a' ∧ a' < a + 1 + rest.length
    · have h2 : a ≤ a' ∧ a' < a + (rest.length + 1) := by omega
      rw [if_pos h1, if_pos h2, show a' - a = a' - (a + 1) + 1 by omega]
      simp
    · rw [if_neg h1]
      by_cases h3 : a' = a
      · subst h3
        simp
      · rw [if_neg h3, if_neg (by omega)]

/-- Stores inside memory keep the canonical form. -/
theorem State.wf_storeBytes (s : State) (a : Nat) (bs : List Byte) (hm : s.mem.wf s.cfg = true)
    (hb : a + bs.length ≤ s.cfg.memSize) : (s.storeBytes a bs).mem.wf s.cfg = true := by
  induction bs generalizing s a with
  | nil => exact hm
  | cons b rest ih =>
    simp only [List.length_cons] at hb
    exact ih (s.storeByte a b) (a + 1) (Memory.wf_write hm b (by omega)) (by show a + 1 + rest.length ≤ s.cfg.memSize; omega)

/-- The launch memory of `new` is in canonical form. -/
theorem launchMemory_wf (cfg : Config) (image : List Host.Cell) : (launchMemory cfg image).wf cfg = true := by
  suffices h : ∀ m : Memory, m.wf cfg = true → (image.foldl
      (fun m c => if 80 ≤ c.1 ∧ c.1 < cfg.memSize then m.write cfg.font c.1 c.2 else m) m).wf cfg = true from
    h [] rfl
  induction image with
  | nil => exact fun m hm => hm
  | cons c rest ih =>
    intro m hm
    simp only [List.foldl_cons]
    split
    · next h => exact ih _ (Memory.wf_write hm c.2 h.2)
    · exact ih _ hm

/-- Launch pairs that do not name an address past the font leave its byte. -/
theorem foldl_launch_read (cfg : Config) (image : List Host.Cell) (m : Memory) {a : Nat}
    (h : ∀ c ∈ image, 80 ≤ c.1 → c.1 ≠ a) :
    (image.foldl (fun m c => if 80 ≤ c.1 ∧ c.1 < cfg.memSize then m.write cfg.font c.1 c.2 else m) m).read
      cfg.font a = m.read cfg.font a := by
  induction image generalizing m with
  | nil => rfl
  | cons c rest ih =>
    rw [List.foldl_cons, ih _ fun d hd => h d (List.mem_cons_of_mem _ hd)]
    split
    · next hc => rw [Memory.read_write, if_neg (h c List.mem_cons_self hc.1).symm]
    · rfl

/-- An address that no launch pair past the font names reads as construction leaves it. -/
theorem launchMemory_other (cfg : Config) (image : List Host.Cell) {a : Nat}
    (h : ∀ c ∈ image, 80 ≤ c.1 → c.1 ≠ a) :
    (launchMemory cfg image).read cfg.font a = launchByte cfg.font a :=
  foldl_launch_read cfg image [] h

/-- The launch memory leaves the font in place. -/
theorem launchMemory_font (cfg : Config) (image : List Host.Cell) {a : Nat} (ha : a < 80) :
    (launchMemory cfg image).read cfg.font a = launchByte cfg.font a :=
  launchMemory_other cfg image fun c _ hc => by omega

/-- An address past the font and inside memory reads as the last launch pair that names it says. -/
theorem launchMemory_last (cfg : Config) (before after : List Host.Cell) {a : Nat} (b : Byte)
    (h : ∀ c ∈ after, c.1 ≠ a) (ha : 80 ≤ a) (hm : a < cfg.memSize) :
    (launchMemory cfg (before ++ (a, b) :: after)).read cfg.font a = b := by
  rw [launchMemory, List.foldl_append, List.foldl_cons, foldl_launch_read cfg after _ fun c hc _ => h c hc,
    if_pos ⟨ha, hm⟩, Memory.read_write, if_pos rfl]

end Sys2Proof.Machine
end

