-- ==== Sys2Proof/Laws/PerInstr.lean ====
section
/-! SUPPORT. Statements made for each instruction: where its family and its X operand stand in its
word. -/

namespace Sys2Proof.Laws.OperandTuple

/-- The family d0 of each row of spec/30_encoding.md R85. -/
def family : Instr → Nibble
  | .nop => 0x0
  | .execMachineRoutine _ => 0x0
  | .clear => 0x0
  | .ret => 0x0
  | .jumpNNN _ => 0x1
  | .callSub _ => 0x2
  | .eqNN _ _ => 0x3
  | .notEqNN _ _ => 0x4
  | .eqY _ _ _ => 0x5
  | .storeNNInX _ _ => 0x6
  | .addNNToX _ _ => 0x7
  | .storeYInX _ _ => 0x8
  | .orYToX _ _ => 0x8
  | .andYToX _ _ => 0x8
  | .xorYToX _ _ => 0x8
  | .addYToX _ _ => 0x8
  | .subYFromX _ _ => 0x8
  | .storeYShiftedRightInX _ _ => 0x8
  | .subXFromY _ _ => 0x8
  | .storeYShiftedLeftInX _ _ => 0x8
  | .notEqY _ _ => 0x9
  | .storeMemAddrNNNInRegI _ => 0xA
  | .jumpToAddrNNNPlusV0 _ => 0xB
  | .setXToRandomNumWithMaskNN _ _ => 0xC
  | .drawSpriteInXY _ _ _ => 0xD
  | .skipIfKeyInXIsPressed _ => 0xE
  | .skipIfKeyInXIsNotPressed _ => 0xE
  | .storeValDTInX _ => 0xF
  | .waitForKeyAndStoreInX _ => 0xF
  | .setDTToX _ => 0xF
  | .setSTToX _ => 0xF
  | .addXToI _ => 0xF
  | .setIToMemAddrOfSpriteInX _ => 0xF
  | .storeBCDOfXInI _ => 0xF
  | .store0ToXInI _ => 0xF
  | .fill0ToXWithValueInAddrI _ => 0xF

/-- The operand X of each row of R85 that has one. -/
def operandX : Instr → Option Nibble
  | .nop => none
  | .execMachineRoutine _ => none
  | .clear => none
  | .ret => none
  | .jumpNNN _ => none
  | .callSub _ => none
  | .eqNN x _ => some x
  | .notEqNN x _ => some x
  | .eqY x _ _ => some x
  | .storeNNInX x _ => some x
  | .addNNToX x _ => some x
  | .storeYInX x _ => some x
  | .orYToX x _ => some x
  | .andYToX x _ => some x
  | .xorYToX x _ => some x
  | .addYToX x _ => some x
  | .subYFromX x _ => some x
  | .storeYShiftedRightInX x _ => some x
  | .subXFromY x _ => some x
  | .storeYShiftedLeftInX x _ => some x
  | .notEqY x _ => some x
  | .storeMemAddrNNNInRegI _ => none
  | .jumpToAddrNNNPlusV0 _ => none
  | .setXToRandomNumWithMaskNN x _ => some x
  | .drawSpriteInXY x _ _ => some x
  | .skipIfKeyInXIsPressed x => some x
  | .skipIfKeyInXIsNotPressed x => some x
  | .storeValDTInX x => some x
  | .waitForKeyAndStoreInX x => some x
  | .setDTToX x => some x
  | .setSTToX x => some x
  | .addXToI x => some x
  | .setIToMemAddrOfSpriteInX x => some x
  | .storeBCDOfXInI x => some x
  | .store0ToXInI x => some x
  | .fill0ToXWithValueInAddrI x => some x

/-- The word's bits 15..12 are the instruction's family, and its bits 11..8 the operand X of a row that
has one (R81, R82, R85). -/
def Statement (i : Instr) : Prop :=
  d0 (encode i) = family i ∧ ∀ x, operandX i = some x → d1 (encode i) = x

theorem nop : Statement .nop :=
  ⟨by decide, by simp [operandX]⟩

theorem execMachineRoutine (nnn : Addr12) : Statement (.execMachineRoutine nnn) := by
  simp [Statement, family, operandX, encode]

theorem clear : Statement .clear :=
  ⟨by decide, by simp [operandX]⟩

theorem ret : Statement .ret :=
  ⟨by decide, by simp [operandX]⟩

theorem jumpNNN (nnn : Addr12) : Statement (.jumpNNN nnn) := by
  simp [Statement, family, operandX, encode]

theorem callSub (nnn : Addr12) : Statement (.callSub nnn) := by
  simp [Statement, family, operandX, encode]

theorem eqNN (x : Nibble) (nn : Byte) : Statement (.eqNN x nn) := by
  simp [Statement, family, operandX, encode]

theorem notEqNN (x : Nibble) (nn : Byte) : Statement (.notEqNN x nn) := by
  simp [Statement, family, operandX, encode]

theorem eqY (x y n : Nibble) : Statement (.eqY x y n) := by
  simp [Statement, family, operandX, encode]

theorem storeNNInX (x : Nibble) (nn : Byte) : Statement (.storeNNInX x nn) := by
  simp [Statement, family, operandX, encode]

theorem addNNToX (x : Nibble) (nn : Byte) : Statement (.addNNToX x nn) := by
  simp [Statement, family, operandX, encode]

theorem storeYInX (x y : Nibble) : Statement (.storeYInX x y) := by
  simp [Statement, family, operandX, encode]

theorem orYToX (x y : Nibble) : Statement (.orYToX x y) := by
  simp [Statement, family, operandX, encode]

theorem andYToX (x y : Nibble) : Statement (.andYToX x y) := by
  simp [Statement, family, operandX, encode]

theorem xorYToX (x y : Nibble) : Statement (.xorYToX x y) := by
  simp [Statement, family, operandX, encode]

theorem addYToX (x y : Nibble) : Statement (.addYToX x y) := by
  simp [Statement, family, operandX, encode]

theorem subYFromX (x y : Nibble) : Statement (.subYFromX x y) := by
  simp [Statement, family, operandX, encode]

theorem storeYShiftedRightInX (x y : Nibble) : Statement (.storeYShiftedRightInX x y) := by
  simp [Statement, family, operandX, encode]

theorem subXFromY (x y : Nibble) : Statement (.subXFromY x y) := by
  simp [Statement, family, operandX, encode]

theorem storeYShiftedLeftInX (x y : Nibble) : Statement (.storeYShiftedLeftInX x y) := by
  simp [Statement, family, operandX, encode]

theorem notEqY (x y : Nibble) : Statement (.notEqY x y) := by
  simp [Statement, family, operandX, encode]

theorem storeMemAddrNNNInRegI (nnn : Addr12) : Statement (.storeMemAddrNNNInRegI nnn) := by
  simp [Statement, family, operandX, encode]

theorem jumpToAddrNNNPlusV0 (nnn : Addr12) : Statement (.jumpToAddrNNNPlusV0 nnn) := by
  simp [Statement, family, operandX, encode]

theorem setXToRandomNumWithMaskNN (x : Nibble) (nn : Byte) : Statement (.setXToRandomNumWithMaskNN x nn) := by
  simp [Statement, family, operandX, encode]

theorem drawSpriteInXY (x y n : Nibble) : Statement (.drawSpriteInXY x y n) := by
  simp [Statement, family, operandX, encode]

theorem skipIfKeyInXIsPressed (x : Nibble) : Statement (.skipIfKeyInXIsPressed x) := by
  simp [Statement, family, operandX, encode]

theorem skipIfKeyInXIsNotPressed (x : Nibble) : Statement (.skipIfKeyInXIsNotPressed x) := by
  simp [Statement, family, operandX, encode]

theorem storeValDTInX (x : Nibble) : Statement (.storeValDTInX x) := by
  simp [Statement, family, operandX, encode]

theorem waitForKeyAndStoreInX (x : Nibble) : Statement (.waitForKeyAndStoreInX x) := by
  simp [Statement, family, operandX, encode]

theorem setDTToX (x : Nibble) : Statement (.setDTToX x) := by
  simp [Statement, family, operandX, encode]

theorem setSTToX (x : Nibble) : Statement (.setSTToX x) := by
  simp [Statement, family, operandX, encode]

theorem addXToI (x : Nibble) : Statement (.addXToI x) := by
  simp [Statement, family, operandX, encode]

theorem setIToMemAddrOfSpriteInX (x : Nibble) : Statement (.setIToMemAddrOfSpriteInX x) := by
  simp [Statement, family, operandX, encode]

theorem storeBCDOfXInI (x : Nibble) : Statement (.storeBCDOfXInI x) := by
  simp [Statement, family, operandX, encode]

theorem store0ToXInI (x : Nibble) : Statement (.store0ToXInI x) := by
  simp [Statement, family, operandX, encode]

theorem fill0ToXWithValueInAddrI (x : Nibble) : Statement (.fill0ToXWithValueInAddrI x) := by
  simp [Statement, family, operandX, encode]

end Sys2Proof.Laws.OperandTuple
end

