-- ==== Sys2Proof/Laws/Screen.lean ====
section
/-! SUPPORT. The laws of the framebuffer: reads after writes, the grid's shape, and what a list of
toggles does to one pixel and to the collision flag. -/

namespace Sys2Proof.Machine

open Sys2Proof.Safety

variable (fb : Framebuffer)

/-! ### Shape -/

theorem Framebuffer.fits_iff (cfg : Config) :
    fb.fits cfg = true ↔ fb.length = cfg.dispH ∧ ∀ row ∈ fb, row.length = cfg.dispW := by
  simp [Framebuffer.fits]

theorem Framebuffer.fits_blank (cfg : Config) : (Framebuffer.blank cfg.dispW cfg.dispH).fits cfg = true := by
  rw [Framebuffer.fits_iff]
  refine ⟨by simp [Framebuffer.blank], fun row hr => ?_⟩
  rw [List.eq_of_mem_replicate hr, List.length_replicate]

theorem Framebuffer.fits_set {cfg : Config} {fb : Framebuffer} (h : fb.fits cfg = true) (x y : Nat) (p : Pixel) :
    (fb.set x y p).fits cfg = true := by
  rw [Framebuffer.fits_iff] at h ⊢
  refine ⟨by simp [Framebuffer.set, h.1], fun row hr => ?_⟩
  obtain ⟨j, hj, rfl⟩ := List.mem_iff_getElem.mp hr
  simp only [Framebuffer.set, List.length_modify] at hj
  simp only [Framebuffer.set, List.getElem_modify]
  split <;> simp [h.2 _ (List.getElem_mem hj)]

/-! ### Pixels -/

theorem Framebuffer.get_blank (w h x y : Nat) : (Framebuffer.blank w h).get x y = .clear := by
  simp only [Framebuffer.get, Framebuffer.blank, List.getElem?_replicate]
  split <;> simp [List.getElem?_replicate]
  split <;> rfl

theorem Framebuffer.get_set_other {x y x' y' : Nat} (p : Pixel) (h : (x', y') ≠ (x, y)) :
    (fb.set x y p).get x' y' = fb.get x' y' := by
  simp only [Framebuffer.get, Framebuffer.set, List.getElem?_modify]
  by_cases hy : y = y'
  · subst hy
    have hx : x ≠ x' := fun e => h (by rw [e])
    cases hrow : fb[y]? with
    | none => simp
    | some row => simp [hx]
  · simp [hy]

theorem Framebuffer.get_set_self {cfg : Config} {fb : Framebuffer} (hf : fb.fits cfg = true) {x y : Nat}
    (p : Pixel) (hx : x < cfg.dispW) (hy : y < cfg.dispH) : (fb.set x y p).get x y = p := by
  rw [Framebuffer.fits_iff] at hf
  have hy' : y < fb.length := hf.1.symm ▸ hy
  have hx' : x < fb[y].length := (hf.2 _ (List.getElem_mem hy')).symm ▸ hx
  simp [Framebuffer.get, Framebuffer.set, hy', hx']

/-- Two grids of one shape with the same pixels are the same framebuffer. -/
theorem Framebuffer.ext_get {cfg : Config} {fb fb' : Framebuffer} (h : fb.fits cfg = true)
    (h' : fb'.fits cfg = true)
    (hg : ∀ x y, x < cfg.dispW → y < cfg.dispH → fb.get x y = fb'.get x y) : fb = fb' := by
  rw [Framebuffer.fits_iff] at h h'
  refine List.ext_getElem (h.1.trans h'.1.symm) fun y hy hy' => ?_
  have hw := h.2 _ (List.getElem_mem hy)
  have hw' := h'.2 _ (List.getElem_mem hy')
  refine List.ext_getElem (hw.trans hw'.symm) fun x hx hx' => ?_
  have := hg x y (hw ▸ hx) (h.1 ▸ hy)
  simpa [Framebuffer.get, hy, hy', hx, hx'] using this

/-! ### Toggles -/

theorem togglePixel_fits {cfg : Config} {acc : Framebuffer × Bool} (h : acc.1.fits cfg = true) (p : Nat × Nat) :
    (togglePixel acc p).1.fits cfg = true :=
  Framebuffer.fits_set h _ _ _

theorem foldl_togglePixel_fits {cfg : Config} (l : List (Nat × Nat)) (acc : Framebuffer × Bool)
    (h : acc.1.fits cfg = true) : (l.foldl togglePixel acc).1.fits cfg = true := by
  induction l generalizing acc with
  | nil => exact h
  | cons p rest ih => exact ih _ (togglePixel_fits h p)

/-- Toggling a list of pixels keeps the framebuffer's shape. -/
theorem togglePixels_fits {cfg : Config} {fb : Framebuffer} (h : fb.fits cfg = true) (l : List (Nat × Nat)) :
    (togglePixels fb l).1.fits cfg = true :=
  foldl_togglePixel_fits l _ h

theorem pixelAfter_zero (p : Pixel) : pixelAfter p 0 = p := by cases p <;> rfl

theorem pixelAfter_add (p : Pixel) (a b : Nat) : pixelAfter (pixelAfter p a) b = pixelAfter p (a + b) := by
  rcases Nat.mod_two_eq_zero_or_one a with ha | ha <;> rcases Nat.mod_two_eq_zero_or_one b with hb | hb <;>
    cases p <;> simp [pixelAfter, Nat.add_mod, ha, hb]

theorem pixelAfter_one (p : Pixel) : pixelAfter p 1 = p.toggled := by cases p <;> rfl

/-- One pixel after a list of toggles: toggled once for each time the list names it. -/
theorem foldl_togglePixel_get {cfg : Config} (l : List (Nat × Nat)) (acc : Framebuffer × Bool)
    (h : acc.1.fits cfg = true) (hl : ∀ p ∈ l, p.1 < cfg.dispW ∧ p.2 < cfg.dispH) (x y : Nat) :
    (l.foldl togglePixel acc).1.get x y = pixelAfter (acc.1.get x y) (l.count (x, y)) := by
  induction l generalizing acc with
  | nil => simp [pixelAfter_zero]
  | cons p rest ih =>
    have hp := hl p (by simp)
    rw [List.foldl_cons, ih _ (togglePixel_fits h p) fun q hq => hl q (by simp [hq])]
    by_cases e : p = (x, y)
    · subst e
      rw [List.count_cons_self, Nat.add_comm, ← pixelAfter_add, pixelAfter_one]
      congr 1
      exact Framebuffer.get_set_self h _ hp.1 hp.2
    · rw [List.count_cons_of_ne e]
      congr 1
      exact Framebuffer.get_set_other _ _ (Ne.symm e)

/-- The collision flag after a list of toggles: it was set before, or the list names a pixel that is Set,
or names one twice. -/
theorem foldl_togglePixel_flag {cfg : Config} (l : List (Nat × Nat)) (acc : Framebuffer × Bool)
    (h : acc.1.fits cfg = true) (hl : ∀ p ∈ l, p.1 < cfg.dispW ∧ p.2 < cfg.dispH) :
    (l.foldl togglePixel acc).2 = true ↔
      acc.2 = true ∨ ∃ p ∈ l, pixelCollides (acc.1.get p.1 p.2) (l.count p) := by
  induction l generalizing acc with
  | nil => simp
  | cons p rest ih =>
    have hp := hl p (by simp)
    rw [List.foldl_cons, ih _ (togglePixel_fits h p) fun q hq => hl q (by simp [hq])]
    have hself : (togglePixel acc p).1.get p.1 p.2 = (acc.1.get p.1 p.2).toggled :=
      Framebuffer.get_set_self h _ hp.1 hp.2
    have hflag : (togglePixel acc p).2 = true ↔ acc.2 = true ∨ acc.1.get p.1 p.2 = .set := by
      simp [togglePixel]
    have hother : ∀ q, q ≠ p → (togglePixel acc p).1.get q.1 q.2 = acc.1.get q.1 q.2 :=
      fun q hq => Framebuffer.get_set_other _ _ hq
    rw [hflag]
    constructor
    · rintro ((h1 | h1) | ⟨q, hq, hc⟩)
      · exact .inl h1
      · exact .inr ⟨p, by simp, .inl ⟨h1, by simp⟩⟩
      · refine .inr ⟨q, by simp [hq], ?_⟩
        by_cases e : q = p
        · subst e
          have := List.count_pos_iff.mpr hq
          exact .inr (by rw [List.count_cons_self]; omega)
        · rwa [hother q e, ← List.count_cons_of_ne (Ne.symm e)] at hc
    · rintro (h1 | ⟨q, hq, hc⟩)
      · exact .inl (.inl h1)
      · by_cases e : q = p
        · subst e
          rw [List.count_cons_self] at hc
          cases hget : acc.1.get q.1 q.2 with
          | set => exact .inl (.inr rfl)
          | clear =>
            have h2 : 1 ≤ rest.count q := by simpa [pixelCollides, hget] using hc
            exact .inr ⟨q, List.count_pos_iff.mp h2, .inl ⟨by rw [hself, hget]; rfl, h2⟩⟩
        · have hq' : q ∈ rest := by simpa [e] using hq
          exact .inr ⟨q, hq', by rwa [hother q e, ← List.count_cons_of_ne (Ne.symm e)]⟩

/-! ### The pixels of a sprite -/

theorem spriteTargets_inside {w h : Nat} (hw : 1 ≤ w) (hh : 1 ≤ h) (vx vy r : Nat) (rows : List Byte) :
    ∀ p ∈ spriteTargets w h vx vy r rows, p.1 < w ∧ p.2 < h := by
  induction rows generalizing r with
  | nil => simp [spriteTargets]
  | cons row rest ih =>
    intro p hp
    rcases List.mem_append.mp hp with hp | hp
    · simp only [rowTargets, List.mem_map] at hp
      obtain ⟨c, -, rfl⟩ := hp
      exact ⟨Nat.mod_lt _ hw, Nat.mod_lt _ hh⟩
    · exact ih _ p hp

theorem rowTargets_count (w h vx vy r : Nat) (row : Byte) (px py : Nat) :
    (rowTargets w h vx vy r row).count (px, py) = rowHits w h vx vy r row px py := by
  rw [rowTargets, List.count_eq_countP, List.countP_map, List.countP_filter, List.countP_eq_length_filter,
    rowHits]
  congr 1
  refine List.filter_congr fun c _ => ?_
  rw [Bool.eq_iff_iff]
  simp only [spriteBit, Function.comp, Bool.and_eq_true, beq_iff_eq, Prod.mk.injEq]
  tauto

/-- How often a pixel is among a sprite's targets is how many set bits land on it. -/
theorem spriteTargets_count (w h vx vy : Nat) (rows : List Byte) (px py : Nat) :
    (spriteTargets w h vx vy 0 rows).count (px, py) =
      spriteHits w h vx vy (fun r => rows.getD r 0) rows.length px py := by
  suffices hs : ∀ r, (spriteTargets w h vx vy r rows).count (px, py) =
      ((List.range rows.length).map fun j => rowHits w h vx vy (r + j) (rows.getD j 0) px py).sum by
    simpa [spriteHits] using hs 0
  induction rows with
  | nil => simp [spriteTargets]
  | cons row rest ih =>
    intro r
    rw [spriteTargets, List.count_append, ih, rowTargets_count, List.length_cons, List.range_succ_eq_map]
    simp [List.map_map, Function.comp_def, Nat.add_assoc, Nat.add_comm 1]

end Sys2Proof.Machine
end

