-- ==== Sys2Proof/Tests/Slice0.lean ====
section
/-! SUPPORT. Small tests: ill-formed terms refused, words written out from the encodings of
spec/30_encoding.md, single steps from the tables of spec/95_test_vectors.md (named 2.1 to 2.8 below),
and a witness for the hypotheses of each statement. A step that takes no k from a script has both
timers at 0 or unwritten, so the free k does not show. -/

set_option maxRecDepth 100000

namespace Sys2Proof.Tests

open Sys2Proof.Machine Sys2Proof.Safety

/-! ### Helpers -/

/-- The answer is a next state with the property. -/
def nextP (p : State → Bool) : Out → Bool
  | .next t => p t
  | _ => false

/-- The answer is this fault, and the state it leaves has the property. -/
def faultP (kind : FaultKind) (p : State → Bool) : Out → Bool
  | .fault (.raised k t) => k == kind && p t
  | _ => false

/-- The answer is this refusal. -/
def refusedP (r : Refusal) : Out → Bool
  | .refused q => q == r
  | _ => false

/-- The state with some V registers set. -/
def vs (l : List (Nibble × Byte)) (s : State) : State := l.foldl (fun t p => t.setV p.1 p.2) s

/-- The reset state, where every register holds 0. -/
def z : State := State.reset

/-- The launch state of R39: no register holds a value. -/
def blank : State :=
  { State.reset with unwritten := { v := Vector.replicate 16 true, index := true, dt := true, st := true } }

/-- Step on one word, placed where the next step fetches. -/
def run (s : State) (w : Nat) : Out := step (s.withFetchWord 16 w)

/-- The bytes from an address on. -/
def mem (s : State) (a n : Nat) : List Nat := (s.bytesAt a n).map BitVec.toNat

/-- The Set pixels, row by row. -/
def lit (s : State) : List (Nat × Nat) :=
  (List.range s.cfg.dispH).flatMap fun y =>
    ((List.range s.cfg.dispW).filter fun x => s.fb.get x y == .set).map fun x => (x, y)

/-- A screen with one pixel Set. -/
def dot (x y : Nat) (s : State) : State := { s with fb := s.fb.set x y .set }

/-! ### WellFormed (R86, R87) -/

theorem test_wf_refuses_0000 : (Instr.execMachineRoutine 0x000).wf true = false := by decide
theorem test_wf_refuses_00E0 : (Instr.execMachineRoutine 0x0E0).wf true = false := by decide
theorem test_wf_refuses_00EE : (Instr.execMachineRoutine 0x0EE).wf true = false := by decide
theorem test_wf_takes_00E1 : (Instr.execMachineRoutine 0x0E1).wf false = true := by decide
theorem test_wf_refuses_5121 : (Instr.eqY 1 2 1).wf false = false := by decide
theorem test_wf_takes_5121_any : (Instr.eqY 1 2 1).wf true = true := by decide
theorem test_config_default_wf : Config.default.wf = true := by decide
theorem test_config_refuses_small : ({ Config.default with memSize := 0x1FF } : Config).wf = false := by decide
theorem test_config_takes_smallest :
    ({ Config.default with memSize := 0x200, stackCap := 0, dispW := 1, dispH := 1 } : Config).wf = true := by decide
theorem test_config_refuses_large : ({ Config.default with memSize := 0x10001 } : Config).wf = false := by decide
theorem test_config_takes_largest : ({ Config.default with memSize := 0x10000 } : Config).wf = true := by decide
theorem test_config_refuses_no_width : ({ Config.default with dispW := 0 } : Config).wf = false := by decide
theorem test_config_refuses_no_height : ({ Config.default with dispH := 0 } : Config).wf = false := by decide

/-! ### Decoding: one word a constructor, its bits written from R85 -/

theorem test_word_nop : decodeWord false 0b0000_0000_0000_0000 = .ok .nop := by decide
theorem test_word_routine : decodeWord false 0b0000_0001_0010_0011 = .ok (.execMachineRoutine 0x123) := by decide
theorem test_word_clear : decodeWord false 0b0000_0000_1110_0000 = .ok .clear := by decide
theorem test_word_ret : decodeWord false 0b0000_0000_1110_1110 = .ok .ret := by decide
theorem test_word_jump : decodeWord false 0b0001_0010_0011_0100 = .ok (.jumpNNN 0x234) := by decide
theorem test_word_call : decodeWord false 0b0010_1010_1011_1100 = .ok (.callSub 0xABC) := by decide
theorem test_word_eqNN : decodeWord false 0b0011_0011_0010_1010 = .ok (.eqNN 3 0x2A) := by decide
theorem test_word_notEqNN : decodeWord false 0b0100_0011_0010_1010 = .ok (.notEqNN 3 0x2A) := by decide
theorem test_word_eqY : decodeWord false 0b0101_0001_0010_0000 = .ok (.eqY 1 2 0) := by decide
theorem test_word_eqY_any : decodeWord true 0b0101_0001_0010_0111 = .ok (.eqY 1 2 7) := by decide
theorem test_word_storeNN : decodeWord false 0b0110_1010_0111_1011 = .ok (.storeNNInX 0xA 0x7B) := by decide
theorem test_word_addNN : decodeWord false 0b0111_0000_0000_0001 = .ok (.addNNToX 0 1) := by decide
theorem test_word_storeY : decodeWord false 0b1000_0011_1111_0000 = .ok (.storeYInX 3 0xF) := by decide
theorem test_word_or : decodeWord false 0b1000_0001_0010_0001 = .ok (.orYToX 1 2) := by decide
theorem test_word_and : decodeWord false 0b1000_0001_0010_0010 = .ok (.andYToX 1 2) := by decide
theorem test_word_xor : decodeWord false 0b1000_0001_0010_0011 = .ok (.xorYToX 1 2) := by decide
theorem test_word_add : decodeWord false 0b1000_0000_0001_0100 = .ok (.addYToX 0 1) := by decide
theorem test_word_sub : decodeWord false 0b1000_0001_0010_0101 = .ok (.subYFromX 1 2) := by decide
theorem test_word_shr : decodeWord false 0b1000_0001_0010_0110 = .ok (.storeYShiftedRightInX 1 2) := by decide
theorem test_word_subn : decodeWord false 0b1000_0001_0010_0111 = .ok (.subXFromY 1 2) := by decide
theorem test_word_shl : decodeWord false 0b1000_0001_0010_1110 = .ok (.storeYShiftedLeftInX 1 2) := by decide
theorem test_word_notEqY : decodeWord false 0b1001_0001_0010_0000 = .ok (.notEqY 1 2) := by decide
theorem test_word_setI : decodeWord false 0b1010_0011_0000_0000 = .ok (.storeMemAddrNNNInRegI 0x300) := by decide
theorem test_word_jumpV0 : decodeWord false 0b1011_0011_0000_0000 = .ok (.jumpToAddrNNNPlusV0 0x300) := by decide
theorem test_word_random : decodeWord false 0b1100_0011_0000_1111 = .ok (.setXToRandomNumWithMaskNN 3 0x0F) := by decide
theorem test_word_draw : decodeWord false 0b1101_0001_0010_0101 = .ok (.drawSpriteInXY 1 2 5) := by decide
theorem test_word_skp : decodeWord false 0b1110_0001_1001_1110 = .ok (.skipIfKeyInXIsPressed 1) := by decide
theorem test_word_sknp : decodeWord false 0b1110_0100_1010_0001 = .ok (.skipIfKeyInXIsNotPressed 4) := by decide
theorem test_word_getDT : decodeWord false 0b1111_0110_0000_0111 = .ok (.storeValDTInX 6) := by decide
theorem test_word_wait : decodeWord false 0b1111_0001_0000_1010 = .ok (.waitForKeyAndStoreInX 1) := by decide
theorem test_word_setDT : decodeWord false 0b1111_0101_0001_0101 = .ok (.setDTToX 5) := by decide
theorem test_word_setST : decodeWord false 0b1111_0101_0001_1000 = .ok (.setSTToX 5) := by decide
theorem test_word_addI : decodeWord false 0b1111_0010_0001_1110 = .ok (.addXToI 2) := by decide
theorem test_word_font : decodeWord false 0b1111_1010_0010_1001 = .ok (.setIToMemAddrOfSpriteInX 0xA) := by decide
theorem test_word_bcd : decodeWord false 0b1111_1010_0011_0011 = .ok (.storeBCDOfXInI 0xA) := by decide
theorem test_word_store : decodeWord false 0b1111_0011_0101_0101 = .ok (.store0ToXInI 3) := by decide
theorem test_word_fill : decodeWord false 0b1111_0001_0110_0101 = .ok (.fill0ToXWithValueInAddrI 1) := by decide

/-- 2.1: the words the table calls UnknownOpcode. -/
theorem test_words_unknown : ([0x5121, 0x8018, 0x801F, 0x9121, 0x9AB1, 0xE000, 0xE1A2, 0xF0FF, 0xF166] : List Word).all
    (fun w => decodeWord false w == .error (.unknownOpcode w)) = true := by decide

/-- 2.1: the operand tuples of the table. -/
theorem test_tuples : operandTuple .ret = (0, 0xE, 0xE) ∧ operandTuple (.execMachineRoutine 0x0E1) = (0, 0xE, 1) ∧
    operandTuple (.storeYShiftedLeftInX 1 2) = (1, 2, 0xE) ∧ operandTuple (.skipIfKeyInXIsPressed 1) = (1, 9, 0xE) ∧
    operandTuple (.waitForKeyAndStoreInX 1) = (1, 0, 0xA) ∧ operandTuple (.fill0ToXWithValueInAddrI 1) = (1, 6, 5) := by
  decide

/-- R52: the byte at the lower address holds d0 and d1; the bytes after the word are left. -/
theorem test_bytes_big_endian : decode false [0x80, 0x14, 0xFF] = .ok (.addYToX 0 1, [0xFF]) := by decide
theorem test_bytes_too_few : decode false [0x80] = .error .truncated := by decide
theorem test_tableWord : decodeTableWord 16 0x8014 = some (.addYToX 0 1) := by decide

/-! ### The cycle (2.2) -/

/-- A state whose next move is a tick with k elapsed periods. -/
def tickOf (k : Nat) (s : State) : State := { s with script := [.tick k] }

theorem test_end_at_FFE : nextP (fun t => t.pc == 0xFFE && t.status == .ended && t.dt == 3)
    (step (tickOf 1 { z with pc := 0xFFE, dt := 4 })) = true := by decide
theorem test_no_end_at_FFD : nextP (fun t => t.pc == 0xFFF && t.status == .running)
    (step { z with pc := 0xFFD }) = true := by decide
theorem test_end_before_decode : nextP (fun t => t.status == .ended)
    (step ({ z with pc := 0xFFE }.storeBytes 0xFFE [0x9A, 0xB1])) = true := by decide
theorem test_unknown : faultP (.unknownOpcode 0x9AB1)
    (fun t => t.pc == 0x202 && t.status == .faulted (.unknownOpcode 0x9AB1)) (run z 0x9AB1) = true := by decide
theorem test_decay : nextP (fun t => t.dt == 3 && t.st == 7) (step (tickOf 2 { z with dt := 5, st := 9 })) = true := by
  decide
theorem test_decay_clamps : nextP (fun t => t.dt == 0) (step (tickOf 5 { z with dt := 1 })) = true := by decide
theorem test_decay_unwritten : nextP (fun t => t.unwritten.dt && t.unwritten.st) (step (tickOf 3 blank)) = true := by
  decide
theorem test_no_tick_when_ended : refusedP (.notRunning .ended) (step { z with status := .ended }) = true := by decide
theorem test_no_tick_before_load : refusedP .tickBeforeLoad (step { z with boot := .awaitingLoad }) = true := by decide
theorem test_place_reads_back : (z.withFetchWord 16 0xD125).fetchWord = 0xD125 := by decide

/-! ### Control (2.3) -/

theorem test_nop : nextP (fun t => t.pc == 0x202) (run z 0x0000) = true := by decide
theorem test_routine : faultP (.notImplemented 0x123)
    (fun t => t.pc == 0x202 && t.last == some (.execMachineRoutine 0x123)) (run z 0x0123) = true := by decide
theorem test_clear : nextP (fun t => lit t == [] && t.getV 0xF == 7)
    (run (dot 63 31 (vs [(0xF, 7)] z)) 0x00E0) = true := by decide
theorem test_ret : nextP (fun t => t.pc == 0x206 && t.stack == [])
    (run { z with pc := 0x210, stack := [0x206] } 0x00EE) = true := by decide
theorem test_ret_empty : faultP (.stackEmpty 0x210) (fun t => t.pc == 0x212)
    (run { z with pc := 0x210 } 0x00EE) = true := by decide
theorem test_jump : nextP (fun t => t.pc == 0x234) (run z 0x1234) = true := by decide
theorem test_call : nextP (fun t => t.pc == 0x210 && t.stack == [0x206]) (run { z with pc := 0x204 } 0x2210) = true := by
  decide
theorem test_call_full : faultP (.stackFull 0x204) (fun t => t.pc == 0x206 && t.stack.length == 16)
    (run { z with pc := 0x204, stack := List.replicate 16 0x300 } 0x2210) = true := by decide
theorem test_jumpV0_last : nextP (fun t => t.pc == 0xFFF) (run (vs [(0, 1)] z) 0xBFFE) = true := by decide
theorem test_jumpV0_bounds : faultP (.boundsMemory 0x10FE) (fun t => t.pc == 0x202)
    (run (vs [(0, 0xFF)] z) 0xBFFF) = true := by decide

/-! ### Skips (2.4) -/

theorem test_eqNN_skips : nextP (fun t => t.pc == 0x204) (run (vs [(3, 0x2A)] z) 0x332A) = true := by decide
theorem test_eqNN_stays : nextP (fun t => t.pc == 0x202) (run (vs [(3, 0x2B)] z) 0x332A) = true := by decide
theorem test_notEqNN_skips : nextP (fun t => t.pc == 0x204) (run (vs [(3, 0x2B)] z) 0x432A) = true := by decide
theorem test_notEqNN_stays : nextP (fun t => t.pc == 0x202) (run (vs [(3, 0x2A)] z) 0x432A) = true := by decide
theorem test_eqY_skips : nextP (fun t => t.pc == 0x204) (run (vs [(1, 0x10), (2, 0x10)] z) 0x5120) = true := by decide
theorem test_eqY_stays : nextP (fun t => t.pc == 0x202) (run (vs [(1, 0x10), (2, 0x11)] z) 0x5120) = true := by decide
theorem test_notEqY_skips : nextP (fun t => t.pc == 0x204) (run (vs [(1, 0x10), (2, 0x11)] z) 0x9120) = true := by decide
theorem test_notEqY_self : nextP (fun t => t.pc == 0x202) (run (vs [(1, 0x10)] z) 0x9110) = true := by decide
theorem test_skp : nextP (fun t => t.pc == 0x204) (run (vs [(4, 7)] (z.setKeyLevel 7 true)) 0xE49E) = true := by decide
theorem test_skp_range : faultP (.keyOutOfRange 0x10) (fun t => t.pc == 0x202) (run (vs [(4, 0x10)] z) 0xE49E) = true := by
  decide
theorem test_sknp : nextP (fun t => t.pc == 0x202) (run (vs [(4, 7)] (z.setKeyLevel 7 true)) 0xE4A1) = true := by decide
theorem test_sknp_released : nextP (fun t => t.pc == 0x204) (run (vs [(4, 7)] z) 0xE4A1) = true := by decide

/-! ### ALU (2.5) -/

theorem test_storeNN : nextP (fun t => t.getV 0xA == 0x7B && !t.vUnwritten 0xA) (run blank 0x6A7B) = true := by decide
theorem test_addNN_wraps : nextP (fun t => t.getV 0 == 0 && t.getV 0xF == 7)
    (run (vs [(0, 0xFF), (0xF, 7)] z) 0x7001) = true := by decide
theorem test_addNN_unwritten : faultP (.uninitialised (.v 0)) (fun t => t.pc == 0x202 && t.vUnwritten 0)
    (run blank 0x7001) = true := by decide
theorem test_storeY : nextP (fun t => t.getV 3 == 1) (run (vs [(0xF, 1)] z) 0x83F0) = true := by decide
theorem test_or : nextP (fun t => t.getV 1 == 0xFF && t.getV 0xF == 5)
    (run (vs [(1, 0xF0), (2, 0x0F), (0xF, 5)] z) 0x8121) = true := by decide
theorem test_and : nextP (fun t => t.getV 1 == 0x30) (run (vs [(1, 0xF0), (2, 0x3C)] z) 0x8122) = true := by decide
theorem test_xor : nextP (fun t => t.getV 1 == 0xCC) (run (vs [(1, 0xF0), (2, 0x3C)] z) 0x8123) = true := by decide
theorem test_add_destination_VF : nextP (fun t => t.getV 0xF == 1) (run (vs [(0xF, 0x90), (1, 0x80)] z) 0x8F14) = true := by
  decide
theorem test_add_source_VF : nextP (fun t => t.getV 0 == 0x11 && t.getV 0xF == 0)
    (run (vs [(0, 0x10), (0xF, 1)] z) 0x80F4) = true := by decide
theorem test_sub_borrow : nextP (fun t => t.getV 1 == 0x01 && t.getV 0xF == 0)
    (run (vs [(1, 0), (2, 0xFF)] z) 0x8125) = true := by decide
theorem test_sub_equal : nextP (fun t => t.getV 1 == 0 && t.getV 0xF == 1)
    (run (vs [(1, 5), (2, 5)] z) 0x8125) = true := by decide
theorem test_shr : nextP (fun t => t.getV 1 == 2 && t.getV 0xF == 1 && t.getV 2 == 5)
    (run (vs [(2, 5)] z) 0x8126) = true := by decide
theorem test_shr_VX_not_read : nextP (fun t => t.getV 1 == 2 && t.getV 0xF == 0)
    (run (vs [(2, 4)] blank) 0x8126) = true := by decide
theorem test_subn : nextP (fun t => t.getV 1 == 2 && t.getV 0xF == 1)
    (run (vs [(1, 3), (2, 5)] z) 0x8127) = true := by decide
theorem test_subn_borrow : nextP (fun t => t.getV 1 == 1 && t.getV 0xF == 0)
    (run (vs [(1, 0xFF), (2, 0)] z) 0x8127) = true := by decide
theorem test_shl : nextP (fun t => t.getV 1 == 2 && t.getV 0xF == 1) (run (vs [(2, 0x81)] z) 0x812E) = true := by decide
theorem test_shl_self : nextP (fun t => t.getV 2 == 0 && t.getV 0xF == 1) (run (vs [(2, 0x80)] z) 0x822E) = true := by
  decide
theorem test_random : nextP (fun t => t.getV 3 == 6 && t.randoms == [])
    (run { z with randoms := [0xB6] } 0xC30F) = true := by decide

/-- A random byte that the state does not list is free; masked by 0 it gives 0. -/
theorem test_random_free : ∃ t, exec (.setXToRandomNumWithMaskNN 3 0) z = .next t ∧ t.getV 3 = 0 ∧ t.draws = 1 :=
  ⟨_, rfl, by simp, rfl⟩

/-! ### Index and memory (2.6) -/

theorem test_setI : nextP (fun t => t.index == 0x300 && !t.unwritten.index) (run blank 0xA300) = true := by decide
theorem test_addI : nextP (fun t => t.index == 0x310) (run (vs [(2, 0x10)] { z with index := 0x300 }) 0xF21E) = true := by
  decide
theorem test_addI_wraps : nextP (fun t => t.index == 0 && t.getV 0xF == 0)
    (run (vs [(2, 1)] { z with index := 0xFFFF }) 0xF21E) = true := by decide
theorem test_font_unmasked : nextP (fun t => t.index == 0x4FB) (run (vs [(0xA, 0xFF)] z) 0xFA29) = true := by decide
theorem test_bcd : nextP (fun t => mem t 0xFFD 3 == [2, 5, 5])
    (run (vs [(0xA, 255)] { z with index := 0xFFD }) 0xFA33) = true := by decide
theorem test_bcd_bounds : faultP (.boundsMemory 0xFFE) (fun t => mem t 0xFFE 2 == [0, 0])
    (run (vs [(0xA, 1)] { z with index := 0xFFE }) 0xFA33) = true := by decide
theorem test_store_exclusive : nextP (fun t => mem t 0x400 4 == [0x11, 0x22, 0x33, 0] && t.index == 0x400)
    (run (vs [(0, 0x11), (1, 0x22), (2, 0x33), (3, 0x44)] { z with index := 0x400 }) 0xF355) = true := by decide
theorem test_store_none : nextP (fun t => t.pc == 0x202) (run blank 0xF055) = true := by decide
theorem test_fill_exclusive : nextP (fun t => t.getV 0 == 1 && t.getV 1 == 2 && t.vUnwritten 2)
    (run (({ blank with pc := 0x200 }.setIndex 0x300).storeBytes 0x300 [1, 2, 3]) 0xF265) = true := by decide
theorem test_fill_bounds : faultP (.boundsMemory 0xFFF) (fun t => t.vUnwritten 0)
    (run (blank.setIndex 0xFFF) 0xF265) = true := by decide

/-- R65: the byte a store leaves is the byte the next fetch sees. -/
theorem test_store_then_fetch : (z.storeBytes 0x200 [0x12, 0x34]).fetchWord = 0x1234 := by decide

/-- Storing what an unlisted address reads as lists nothing: 0xF0 is the font's first byte. -/
theorem test_memory_canonical : (z.storeByte 0 0xF0).mem = [] ∧
    ((z.storeByte 0x300 5).storeByte 0x300 0).mem = [] ∧
    ((z.storeByte 0x300 5).storeByte 0x2FF 6).mem = [(0x2FF, 6), (0x300, 5)] := by decide
theorem test_reset_memory_wf : Memory.wf State.reset.cfg State.reset.mem = true := by decide

/-! ### Draw (2.7) -/

theorem test_draw_wraps : nextP (fun t => lit t == [(5, 0), (62, 0), (4, 31), (5, 31), (62, 31), (63, 31)] && t.getV 0xF == 0)
    (run (vs [(1, 62), (2, 31)] ({ z with index := 0x210 }.storeBytes 0x210 [0xC3, 0x81])) 0xD122) = true := by decide
theorem test_draw_double_hit : nextP (fun t => lit t == [] && t.getV 0xF == 1)
    (run { ({ z with index := 0x210 }.storeByte 0x210 0x88) with
      cfg := { Config.default with dispW := 4, dispH := 1 }
      fb := [[.clear, .clear, .clear, .clear]] } 0xD121) = true := by decide

/-! ### Timers and keys (2.8), load -/

theorem test_getDT_after_decay : nextP (fun t => t.getV 6 == 3) (run (tickOf 2 { z with dt := 5 }) 0xF607) = true := by decide
theorem test_getDT_unwritten : faultP (.uninitialised .dt) (fun t => t.vUnwritten 6) (run blank 0xF607) = true := by decide
theorem test_setDT : nextP (fun t => t.dt == 7) (run (vs [(5, 7)] z) 0xF515) = true := by decide
theorem test_setST : nextP (fun t => t.st == 0x10) (run (vs [(5, 0x10)] z) 0xF518) = true := by decide

/-- The state in which FX0A of V5 has suspended the tick, with the host's next move. -/
def waiting (m : HostMove) : State := { z with wait := some 5, status := .waiting, boot := .ticked, pc := 0x202, script := [m] }

theorem test_wait_suspends : nextP (fun t => t.wait == some 5 && t.status == .waiting && t.pc == 0x202)
    (run (z.setKeyLevel 3 true) 0xF50A) = true := by decide
theorem test_wait_press : nextP (fun t => t.getV 5 == 7 && t.keyLevel 7 && t.status == .running && t.pc == 0x202)
    (step (waiting (.setKey 7 true))) = true := by decide
theorem test_wait_release : nextP (fun t => t.wait == some 5 && t.status == .waiting)
    (step (waiting (.setKey 3 false))) = true := by decide
theorem test_wait_abandoned : nextP (fun t => t.wait == none && t.status == .abandoned)
    (step (waiting .abandonWait)) = true := by decide
theorem test_no_tick_while_waiting : refusedP (.notRunning .waiting) (step (waiting (.tick 1))) = true := by decide

theorem test_load_truncates : nextP (fun t => mem t 0x200 3 == [1, 2, 0] && t.boot == .loaded)
    (loadRom [1, 2, 3] { z with boot := .awaitingLoad, cfg := { Config.default with memSize := 0x202 } }) = true := by decide
theorem test_load_once : refusedP .loadNotAdmitted (step { z with script := [.load [1]] }) = true := by decide
theorem test_new_refuses : refusedP .badConfiguration
    (newCore { Config.default with memSize := 0x1FF } z.fb z.keys []) = true := by decide

/-! ### Witnesses: states and operands that meet the hypotheses of the statements, clause by clause -/

/-- A state with room for one word before the end of memory. -/
def nearEnd : State := { z with pc := 0xFFD }

/-- A state whose fetch would leave memory. -/
def atEnd : State := { z with pc := 0xFFE }

/-- A state with I set. -/
def atI (w : Word) : State := { z with index := w }

/-- A state with n return addresses on the stack. -/
def deep (n : Nat) : State := { z with stack := List.replicate n 0x300 }

/-- A state whose decoded word is w. -/
def at200 (w : Word) : State := z.storeBytes 0x200 (bytesOfWord w)

theorem witness_DecodeOfEncode : (Instr.eqY 1 2 1).wf true = true ∧ (Instr.execMachineRoutine 0x0E1).wf false = true := by
  decide
theorem witness_EncodeOfDecode : decodeWord true 0x5121 = .ok (.eqY 1 2 1) := by decide
theorem witness_ReservedWords : decodeWord false 0x8018 = .error (.unknownOpcode 0x8018) := by decide
theorem witness_MachineRoutineSpace : d0 0x0FFF = 0 ∧ d0 0x00E1 = 0 := by decide
theorem witness_OperandTuple : decodeWord false 0xD125 = .ok (.drawSpriteInXY 1 2 5) := by decide

theorem witness_StepRuns_script : nearEnd.tickRefusal = none ∧ nearEnd.atEnd = false ∧
    decode nearEnd.cfg.decode5xynAny [nearEnd.byteAt nearEnd.pc.toNat, nearEnd.byteAt (nearEnd.pc.toNat + 1)] =
      .ok (.nop, []) ∧
    (tickOf 3 nearEnd).script = .tick 3 :: [] := by decide
theorem witness_StepRuns_unscripted : (at200 0xD125).tickRefusal = none ∧ (at200 0xD125).atEnd = false ∧
    decode (at200 0xD125).cfg.decode5xynAny [(at200 0xD125).byteAt 0x200, (at200 0xD125).byteAt 0x201] =
      .ok (.drawSpriteInXY 1 2 5, []) ∧
    (at200 0xD125).pc = 0x200 ∧ (at200 0xD125).script = [] := by decide
theorem witness_UnknownOpcode : (at200 0x9AB1).tickRefusal = none ∧ (at200 0x9AB1).atEnd = false ∧
    decodeWord (at200 0x9AB1).cfg.decode5xynAny (at200 0x9AB1).fetchWord =
      .error (.unknownOpcode (at200 0x9AB1).fetchWord) := by decide
theorem witness_EndOfProgram_end : atEnd.tickRefusal = none ∧ atEnd.cfg.memSize ≤ atEnd.pc.toNat + 2 := by
  decide
theorem witness_EndOfProgram_run : nearEnd.tickRefusal = none ∧ nearEnd.pc.toNat + 2 < nearEnd.cfg.memSize ∧
    decodeWord nearEnd.cfg.decode5xynAny nearEnd.fetchWord = .ok .nop ∧
    nextP (fun t => t.status == .running) (tick 0 nearEnd) = true := by decide
theorem witness_PcIsPast_skip : (at200 0x3000).tickRefusal = none ∧ (at200 0x3000).atEnd = false ∧
    decodeWord false (at200 0x3000).fetchWord = .ok (.eqNN 0 0) ∧
    nextP (fun t => t.pc == 0x204) (tick 0 (at200 0x3000)) = true := by decide
theorem witness_PcIsPast_skip_taken : skips (.eqNN 0 0) = true ∧ skipTaken (at200 0x3000) (.eqNN 0 0) = true ∧
    skipTaken (at200 0x4000) (.notEqNN 0 0) = false ∧ decodeWord false (at200 0x4000).fetchWord = .ok (.notEqNN 0 0) ∧
    nextP (fun t => t.pc == 0x202) (tick 0 (at200 0x4000)) = true := by decide
theorem witness_PcIsPast_call : decodeWord false (at200 0x2210).fetchWord = .ok (.callSub 0x210) ∧
    (at200 0x2210).stack.length < (at200 0x2210).cfg.stackCap := by decide
theorem witness_PcIsPast_fault : faultP (.stackEmpty 0x200) (fun u => u.pc == 0x202) (tick 0 (at200 0x00EE)) = true := by
  decide
theorem witness_TickNeeds : ({ z with boot := .awaitingLoad } : State).boot = .awaitingLoad ∧
    ({ z with boot := .loadFailed } : State).boot = .loadFailed ∧
    (waiting (.tick 1)).boot = .ticked ∧ (waiting (.tick 1)).status ≠ .running ∧
    z.boot = .loaded ∧ z.status = .running := by decide
theorem witness_Decay : z.unwritten.dt = false ∧ z.unwritten.st = false ∧ blank.unwritten.dt = true ∧
    blank.unwritten.st = true := by decide

theorem witness_NoInstructionRuns : Inv (waiting (.setKey 7 true)) ∧ (waiting (.setKey 7 true)).wait = some 5 ∧
    ∃ t, step (waiting (.setKey 7 true)) = .next t := ⟨by decide, rfl, _, rfl⟩
theorem witness_StepKeepsTheInvariant : Inv nearEnd ∧ ∃ t, step (tickOf 0 nearEnd) = .next t := ⟨by decide, _, rfl⟩
theorem witness_StepKeepsEveryRegisterWritten : AllWritten (tickOf 0 nearEnd) ∧ ∃ t, step (tickOf 0 nearEnd) = .next t :=
  ⟨by decide, _, rfl⟩
theorem witness_WrittenRegisters : AllWritten z := by decide
theorem witness_Faults : ∃ f, exec .ret z = .fault f := ⟨_, rfl⟩
theorem witness_HandlersNeverRefuse : ∃ u, exec .ret z = .fault (.raised (.stackEmpty 0x1FE) u) := ⟨_, rfl⟩

/-- An instruction that meets every frame's side condition: it stores nothing, writes no screen, touches no
stack, sets no timer and no I, and is no skip, jump or wait. -/
theorem witness_frames : (∃ t, exec (.storeNNInX 0xF 7) z = .next t) ∧ storesToMemory (.storeNNInX 0xF 7) = false ∧
    writesScreen (.storeNNInX 0xF 7) = false ∧ touchesStack (.storeNNInX 0xF 7) = false ∧
    (∀ x, (Instr.storeNNInX 0xF 7) ≠ .setDTToX x) ∧ (∀ x, (Instr.storeNNInX 0xF 7) ≠ .setSTToX x) ∧
    (∀ x, (Instr.storeNNInX 0xF 7) ≠ .waitForKeyAndStoreInX x) ∧
    writesIndex (.storeNNInX 0xF 7) = false ∧ skips (.storeNNInX 0xF 7) = false ∧
    jumps (.storeNNInX 0xF 7) = false ∧ (0 : Nibble) ∉ writtenVs (.storeNNInX 0xF 7) :=
  ⟨⟨_, rfl⟩, rfl, rfl, rfl, fun _ => by simp, fun _ => by simp, fun _ => by simp, rfl, rfl, rfl, by decide⟩
theorem witness_Framebuffer : z.fb.fits z.cfg = true ∧ ¬(64 < z.cfg.dispW ∧ 0 < z.cfg.dispH) ∧
    ¬(63 < z.cfg.dispW ∧ 32 < z.cfg.dispH) ∧ 63 < z.cfg.dispW ∧ 31 < z.cfg.dispH ∧ ∃ t, exec .clear z = .next t :=
  ⟨by decide, by decide, by decide, by decide, by decide, _, rfl⟩
theorem witness_Stack_full : (deep 16).stack.length = (deep 16).cfg.stackCap := by decide
theorem witness_Stack_room : (deep 15).stack.length < (deep 15).cfg.stackCap ∧
    z.stack.length = 0 := by decide
theorem witness_KeyLevels : Holds (vs [(4, 7)] z) 4 ((7 : Nibble).setWidth 8) ∧
    (∃ t, hostMove (.tick 0) nearEnd = .next t) ∧ ∀ key pressed, HostMove.tick 0 ≠ .setKey key pressed :=
  ⟨by decide, ⟨_, rfl⟩, fun _ _ => by simp⟩
theorem witness_ProgramCounter_skip : skips (.eqNN 0 0) = true ∧ ∃ t, exec (.eqNN 0 0) z = .next t := ⟨rfl, _, rfl⟩
theorem witness_ProgramCounter_jumps : (∃ t, exec (.callSub 0x210) z = .next t) ∧
    (∃ t, exec (.jumpToAddrNNNPlusV0 0xFFF) z = .next t) ∧ ∃ t, exec .ret { z with stack := [0x206] } = .next t :=
  ⟨⟨_, rfl⟩, ⟨_, rfl⟩, _, rfl⟩

theorem witness_Clear_again : z.fb.fits z.cfg = true ∧ ∀ x y, z.fb.get x y = .clear :=
  ⟨by decide, fun x y => by
    show ((List.replicate 32 (List.replicate 64 Pixel.clear))[y]?.getD [])[x]?.getD .clear = .clear
    rw [List.getElem?_replicate]
    split
    · rw [Option.getD_some, List.getElem?_replicate]; split <;> rfl
    · rfl⟩
theorem witness_Return : ({ z with stack := [0x206] } : State).stack = 0x206 :: [] ∧ z.stack = [] := by decide
theorem witness_ReturnComesBack : ∃ t u : State, exec (.callSub 0x210) z = .next t ∧ u.stack = t.stack ∧ u.pc = 0x212 :=
  ⟨_, { z with pc := 0x212, stack := [0x200] }, rfl, rfl, rfl⟩
theorem witness_IndexedJump_in : Written z 0 ∧ (0xFFF : Addr12).toNat + (z.getV 0).toNat < z.cfg.memSize := by decide
theorem witness_IndexedJump_out : Written (vs [(0, 1)] z) 0 ∧
    (vs [(0, 1)] z).cfg.memSize ≤ (0xFFF : Addr12).toNat + ((vs [(0, 1)] z).getV 0).toNat ∧ blank.vUnwritten 0 = true := by
  decide
theorem witness_KeySkips_in : Written (vs [(4, 15)] z) 4 ∧ ((vs [(4, 15)] z).getV 4).toNat = (15 : Nibble).toNat := by decide
theorem witness_KeySkips_out : Written (vs [(4, 16)] z) 4 ∧ 16 ≤ ((vs [(4, 16)] z).getV 4).toNat := by decide

/-- The hypotheses of the statements about VX and VY: both hold a value, X is not F; one holds none. -/
theorem witness_VX_VY : Written z 1 ∧ Written z 2 ∧ Written z regVF ∧ (1 : Nibble) ≠ regVF ∧ blank.vUnwritten 1 = true := by
  decide
theorem witness_VX_only : Written (vs [(1, 5)] blank) 1 ∧ (vs [(1, 5)] blank).vUnwritten 2 = true := by decide
theorem witness_Random : ({ z with randoms := [0xB6] } : State).randoms = 0xB6 :: [] ∧ (0 : Byte) = 0 := by decide
theorem witness_Flags : (∃ t, exec (.addYToX 0xF 1) z = .next t) ∧ Instr.addYToX 0xF 1 ∈
    ([.addYToX 0xF 1, .subYFromX 0xF 1] : List Instr) := ⟨⟨_, rfl⟩, by decide⟩

theorem witness_Bcd_in : Written (atI 0xFFD) 0xA ∧ (atI 0xFFD).unwritten.index = false ∧
    (atI 0xFFD).index.toNat + 3 ≤ (atI 0xFFD).cfg.memSize := by decide
theorem witness_Bcd_out : Written (atI 0xFFE) 0xA ∧ (atI 0xFFE).unwritten.index = false ∧
    (atI 0xFFE).cfg.memSize < (atI 0xFFE).index.toNat + 3 := by decide
theorem witness_Transfer_in : (0xF : Nibble) ≠ 0 ∧ (atI 0xFF1).unwritten.index = false ∧
    (∀ r : Nibble, r < 0xF → Written (atI 0xFF1) r) ∧
    (atI 0xFF1).index.toNat + (0xF : Nibble).toNat ≤ (atI 0xFF1).cfg.memSize := by decide
theorem witness_Transfer_out : (0xF : Nibble) ≠ 0 ∧ (atI 0xFF2).unwritten.index = false ∧
    (∀ r : Nibble, r < 0xF → Written (atI 0xFF2) r) ∧
    (atI 0xFF2).cfg.memSize < (atI 0xFF2).index.toNat + (0xF : Nibble).toNat := by decide
theorem witness_LoadAfterStore : ∃ t u r : State, exec (.store0ToXInI 2) (vs [(0, 0x11), (1, 0x22)] { z with index := 0x400 }) = .next t ∧
    u.mem = t.mem ∧ u.cfg = t.cfg ∧ u.index = t.index ∧ exec (.fill0ToXWithValueInAddrI 2) u = .next r ∧ (1 : Nibble) < 2 :=
  ⟨_, _, _, rfl, rfl, rfl, rfl, rfl, by decide⟩
theorem witness_StoredBytes : z.mem.wf z.cfg = true ∧ 0xFFE + ([1, 2] : List Byte).length ≤ z.cfg.memSize := by decide

theorem witness_Draw_none : Inv z ∧ Written z 1 ∧ Written z 2 ∧ (0 : Nibble) = 0 := by decide
theorem witness_Draw_in : (1 : Nibble) ≠ 0 ∧ Inv (atI 0xFFF) ∧ Written (atI 0xFFF) 1 ∧ Written (atI 0xFFF) 2 ∧
    (atI 0xFFF).unwritten.index = false ∧
    (atI 0xFFF).index.toNat + (1 : Nibble).toNat ≤ (atI 0xFFF).cfg.memSize := by decide
theorem witness_Draw_out : Written (atI 0xFFF) 1 ∧ Written (atI 0xFFF) 2 ∧ (atI 0xFFF).unwritten.index = false ∧
    (2 : Nibble) ≠ 0 ∧ (atI 0xFFF).cfg.memSize < (atI 0xFFF).index.toNat + (2 : Nibble).toNat := by decide
theorem witness_DrawingTwice : Inv z ∧ (1 : Nibble) ≠ regVF ∧ (2 : Nibble) ≠ regVF ∧
    ∃ t, exec (.drawSpriteInXY 1 2 5) z = .next t := ⟨by decide, by decide, by decide, _, rfl⟩

theorem witness_Unwritten_order : Written (vs [(1, 5), (2, 5)] blank) 1 ∧ Written (vs [(1, 5), (2, 5)] blank) 2 ∧
    (vs [(1, 5), (2, 5)] blank).unwritten.index = true ∧ (3 : Nibble) ≠ 0 ∧ blank.unwritten.dt = true := by decide
theorem witness_Unwritten_store : (1 : Nibble) < 2 ∧ ((vs [(0, 5)] blank).setIndex 0x400).unwritten.index = false ∧
    ((vs [(0, 5)] blank).setIndex 0x400).vUnwritten 1 = true ∧
    ∀ r : Nibble, r < 1 → Written ((vs [(0, 5)] blank).setIndex 0x400) r := by decide

/-- R39, D7: of two pairs for one address the later counts, and earlier pairs for others stay. -/
theorem test_new_image : nextP (fun t => mem t 0x4F 3 == [0x80, 7, 0] && mem t 0x300 2 == [9, 6])
    (newCore Config.default z.fb z.keys [(0x4F, 5), (0x50, 7), (0x300, 8), (0x300, 9), (0x301, 6)]) = true := by decide
theorem witness_NewCore_image : ([(0x50, 7), (0x300, 8), (0x300, 9)] : List Host.Cell) =
      [(0x50, 7), (0x300, 8)] ++ (0x300, 9) :: [] ∧
    ([(0x50, 7), (0x300, 8), (0x300, 9)] : List Host.Cell) = [] ++ (0x50, 7) :: [(0x300, 8), (0x300, 9)] ∧
    (∀ c ∈ ([(0x300, 8), (0x300, 9)] : List Host.Cell), c.1 ≠ 0x50) ∧ 80 ≤ 0x50 ∧ 0x300 < Config.default.memSize ∧
    ∀ c ∈ ([(0x50, 7), (0x300, 8), (0x300, 9)] : List Host.Cell), c.1 ≠ 0x301 := by decide
theorem witness_NewCore : Config.default.wf = true ∧ z.fb.fits Config.default = true ∧ 80 ≤ 80 ∧
    0xFFF < Config.default.memSize ∧ ({ Config.default with dispW := 0 } : Config).wf = false ∧
    Framebuffer.fits Config.default [] = false := by decide
theorem witness_Load : Config.default.wf = true ∧ ({ z with boot := .awaitingLoad } : State).boot = .awaitingLoad ∧
    z.boot ≠ .awaitingLoad ∧ 2 < ([1, 2, 3] : List Byte).length ∧ 0x200 + 2 < Config.default.memSize := by decide

end Sys2Proof.Tests
end

section
/-! SUPPORT. What no instruction writes, and what each move of the host can answer, each said once; then
who writes a key level (spec/10_state.md R32). -/

namespace Sys2Proof.Machine

open Sys2Proof.Safety

variable {s t : State}

/-! ### What no instruction writes -/

/-- The fields of the state that are the host's or the tick's to set, never a handler's: the key levels
(R32), `last` (R35), the boot phase (R272), the parameters (R7) and the host's script (R257). -/
structure HandlerFixed where
  keys : Vector Bool 16
  last : Option Instr
  boot : BootPhase
  cfg : Config
  script : List HostMove

/-- These fields of a state. -/
def State.handlerFixed (s : State) : HandlerFixed :=
  { keys := s.keys, last := s.last, boot := s.boot, cfg := s.cfg, script := s.script }

theorem State.handlerFixed_skipIf (s : State) (c : Bool) : (s.skipIf c).handlerFixed = s.handlerFixed := by
  rw [State.skipIf_eq]
  rfl

theorem State.handlerFixed_storeBytes (s : State) (a : Nat) (bs : List Byte) :
    (s.storeBytes a bs).handlerFixed = s.handlerFixed := by
  rw [State.storeBytes_eq]
  rfl

@[simp] theorem State.storeBytes_keys (s : State) (a : Nat) (bs : List Byte) : (s.storeBytes a bs).keys = s.keys :=
  congrArg HandlerFixed.keys (s.handlerFixed_storeBytes a bs)

/-- Every handler that completes leaves the key levels, `last`, the boot phase, the parameters and the
script as they were. -/
theorem exec_handlerFixed {i : Instr} (h : exec i s = .next t) : t.handlerFixed = s.handlerFixed := by
  cases i with
  | nop => cases h; rfl
  | execMachineRoutine nnn => cases h
  | clear => cases h; rfl
  | ret => obtain ⟨_, _, -, rfl⟩ := execReturn_next h; rfl
  | jumpNNN nnn => cases h; rfl
  | callSub nnn => obtain ⟨-, rfl⟩ := execCallSub_next h; rfl
  | eqNN x nn => obtain ⟨-, rfl⟩ := execEqNN_next h; exact s.handlerFixed_skipIf _
  | notEqNN x nn => obtain ⟨-, rfl⟩ := execNotEqNN_next h; exact s.handlerFixed_skipIf _
  | eqY x y n => obtain ⟨-, -, rfl⟩ := execEqY_next h; exact s.handlerFixed_skipIf _
  | storeNNInX x nn => cases h; rfl
  | addNNToX x nn => obtain ⟨-, rfl⟩ := execAddNNToX_next h; rfl
  | storeYInX x y => obtain ⟨-, rfl⟩ := execStoreYInX_next h; rfl
  | orYToX x y => obtain ⟨-, -, rfl⟩ := execOrYToX_next h; rfl
  | andYToX x y => obtain ⟨-, -, rfl⟩ := execAndYToX_next h; rfl
  | xorYToX x y => obtain ⟨-, -, rfl⟩ := execXorYToX_next h; rfl
  | addYToX x y => obtain ⟨-, -, rfl⟩ := execAddYToX_next h; rfl
  | subYFromX x y => obtain ⟨-, -, rfl⟩ := execSubYFromX_next h; rfl
  | storeYShiftedRightInX x y => obtain ⟨-, rfl⟩ := execStoreYShiftedRightInX_next h; rfl
  | subXFromY x y => obtain ⟨-, -, rfl⟩ := execSubXFromY_next h; rfl
  | storeYShiftedLeftInX x y => obtain ⟨-, rfl⟩ := execStoreYShiftedLeftInX_next h; rfl
  | notEqY x y => obtain ⟨-, -, rfl⟩ := execNotEqY_next h; exact s.handlerFixed_skipIf _
  | storeMemAddrNNNInRegI nnn => cases h; rfl
  | jumpToAddrNNNPlusV0 nnn => obtain ⟨-, -, rfl⟩ := execJumpToAddrNNNPlusV0_next h; rfl
  | setXToRandomNumWithMaskNN x nn =>
    obtain ⟨_, _, _, he⟩ := execSetXToRandomNumWithMaskNN_eq x nn s
    cases he.symm.trans h
    rfl
  | drawSpriteInXY x y n => obtain ⟨-, -, ⟨-, rfl⟩ | ⟨-, -, rfl⟩⟩ := execDrawSpriteInXY_next h <;> rfl
  | skipIfKeyInXIsPressed x =>
    obtain ⟨-, -, rfl⟩ := execSkipIfKeyInXIsPressed_next h; exact s.handlerFixed_skipIf _
  | skipIfKeyInXIsNotPressed x =>
    obtain ⟨-, -, rfl⟩ := execSkipIfKeyInXIsNotPressed_next h; exact s.handlerFixed_skipIf _
  | storeValDTInX x => obtain ⟨-, rfl⟩ := execStoreValDTInX_next h; rfl
  | waitForKeyAndStoreInX x => cases h; rfl
  | setDTToX x => obtain ⟨-, rfl⟩ := execSetDTToX_next h; rfl
  | setSTToX x => obtain ⟨-, rfl⟩ := execSetSTToX_next h; rfl
  | addXToI x => obtain ⟨-, -, rfl⟩ := execAddXToI_next h; rfl
  | setIToMemAddrOfSpriteInX x => obtain ⟨-, rfl⟩ := execSetIToMemAddrOfSpriteInX_next h; rfl
  | storeBCDOfXInI x =>
    obtain ⟨-, -, -, rfl⟩ := execStoreBCDOfXInI_next h; exact s.handlerFixed_storeBytes _ _
  | store0ToXInI x =>
    obtain ⟨-, rfl⟩ | ⟨-, -, -, rfl⟩ := execStore0ToXInI_next h
    · rfl
    · exact s.handlerFixed_storeBytes _ _
  | fill0ToXWithValueInAddrI x =>
    obtain ⟨-, rfl⟩ | ⟨-, -, rfl⟩ := execFill0ToXWithValueInAddrI_next h <;> rfl

theorem exec_keys {i : Instr} (h : exec i s = .next t) : t.keys = s.keys :=
  congrArg HandlerFixed.keys (exec_handlerFixed h)

/-! ### What a move of the host answers, if a next state -/

theorem runInstruction_of_ok {i : Instr} (h : decodeWord s.cfg.decode5xynAny s.fetchWord = .ok i) :
    runInstruction s = exec i (s.fetched (some i)) := by
  rw [State.fetchWord] at h
  simp only [runInstruction, decode_two, h]

theorem runInstruction_of_error {e : DecodeError}
    (h : decodeWord s.cfg.decode5xynAny s.fetchWord = .error e) :
    runInstruction s =
      raise (.unknownOpcode s.fetchWord) (s.fetched (Config.freeLast s.draws s.fetchWord)) := by
  rw [State.fetchWord] at h
  simp only [runInstruction, decode_two, h]

/-- A fetch that completes ran the instruction its word decodes to. -/
theorem runInstruction_next (h : runInstruction s = .next t) :
    ∃ i, decodeWord s.cfg.decode5xynAny s.fetchWord = .ok i ∧ exec i (s.fetched (some i)) = .next t := by
  cases hd : decodeWord s.cfg.decode5xynAny s.fetchWord with
  | ok i => exact ⟨i, rfl, by rw [← runInstruction_of_ok hd, h]⟩
  | error e =>
    rw [runInstruction_of_error hd] at h
    cases h

/-- A tick that completes was admitted; it ended the program, or ran one instruction. -/
theorem tick_next {k : Nat} (h : tick k s = .next t) :
    s.tickRefusal = none ∧
      ((s.atEnd = true ∧ t = { s.started k with status := .ended }) ∨
        (s.atEnd = false ∧ runInstruction (s.started k) = .next t)) := by
  unfold tick at h
  split at h
  · cases h
  · next hr =>
    refine ⟨hr, ?_⟩
    split at h
    · next he => cases h; exact .inl ⟨he, rfl⟩
    · next he => exact .inr ⟨Bool.eq_false_iff.mpr he, h⟩

theorem abandonWait_next (h : abandonWait s = .next t) : s.wait.isSome = true ∧ t = s.abandoned := by
  unfold abandonWait at h
  split at h
  · next hw => cases h; simp [hw]
  · cases h

theorem loadRom_next {rom : List Byte} (h : loadRom rom s = .next t) :
    s.boot = .awaitingLoad ∧ t = { s.storeBytes 0x200 (romPart s.cfg rom) with boot := .loaded } := by
  unfold loadRom at h
  split at h
  · next hb => injection h with h; exact ⟨hb, h.symm⟩
  all_goals cases h

theorem loadFailure_next (h : loadFailure s = .next t) :
    s.boot = .awaitingLoad ∧
      t = { s.storeBytes 0x200 (romPart s.cfg (Config.freeLoad s.draws)) with
        boot := .loadFailed, draws := s.draws + 1 } := by
  unfold loadFailure at h
  split at h
  · next hb => injection h with h; exact ⟨hb, h.symm⟩
  all_goals cases h

/-! ### The key levels (R32) -/

theorem tick_keys {k : Nat} (h : tick k s = .next t) : t.keys = s.keys := by
  obtain ⟨-, ⟨-, rfl⟩ | ⟨-, hrun⟩⟩ := tick_next h
  · rfl
  · obtain ⟨i, -, hexec⟩ := runInstruction_next hrun
    simpa using exec_keys hexec

/-- A move that is no `set` leaves every key level as it was. -/
theorem hostMove_keys {m : HostMove} (h : hostMove m s = .next t)
    (hm : ∀ key pressed, m ≠ .setKey key pressed) : t.keys = s.keys := by
  cases m with
  | tick k => exact tick_keys h
  | setKey key pressed => exact absurd rfl (hm key pressed)
  | abandonWait => obtain ⟨-, rfl⟩ := abandonWait_next h; rfl
  | load rom => obtain ⟨-, rfl⟩ := loadRom_next h; simp
  | loadFails => obtain ⟨-, rfl⟩ := loadFailure_next h; simp

/-- Whether or not it ends a wait, `set` leaves the key levels that storing its level leaves. -/
@[simp] theorem deliverKey_keys (key : Nibble) (pressed : Bool) (s : State) :
    (deliverKey key pressed s).keys = (s.setKeyLevel key pressed).keys := by
  unfold deliverKey
  split <;> rfl

theorem State.keyLevel_congr (h : t.keys = s.keys) (key : Nibble) : t.keyLevel key = s.keyLevel key := by
  simp [State.keyLevel, h]

theorem keyLevel_deliverKey (key other : Nibble) (pressed : Bool) (s : State) :
    (deliverKey key pressed s).keyLevel other = if other = key then pressed else s.keyLevel other := by
  rw [State.keyLevel_congr (deliverKey_keys key pressed s), State.keyLevel_setKeyLevel]

/-- A register that holds a key's number names that key (R220, R221). -/
theorem readKeyOperand_holds {x key : Nibble} (h : Holds s x (key.setWidth 8)) (k : Nibble → Out) :
    readKeyOperand x s k = k key := by
  obtain ⟨hval, hwritten⟩ := h
  have hnat : (key.setWidth 8).toNat = key.toNat := by
    rw [BitVec.toNat_setWidth]
    omega
  rw [readKeyOperand, readV_written hwritten, hval, hnat, if_neg (by omega), BitVec.ofNat_toNat,
    BitVec.setWidth_eq]

/-- Settles O25: handlers leave the levels by `exec_keys`, the host's other moves by `hostMove_keys`; `set`
stores one level, and a key skip reads the level of the key its register names. -/
theorem keyLevelsAreTheHosts : Obligations.KeyLevelsAreTheHosts := by
  unfold Obligations.KeyLevelsAreTheHosts
  refine ⟨fun _ _ _ => exec_keys, fun _ _ _ => hostMove_keys, fun s key other pressed =>
    keyLevel_deliverKey key other pressed s, fun s x key hx => ⟨?_, ?_⟩⟩
  · rw [exec, execSkipIfKeyInXIsPressed, readKeyOperand_holds hx]
    rfl
  · rw [exec, execSkipIfKeyInXIsNotPressed, readKeyOperand_holds hx]
    cases s.keyLevel key <;> rfl

end Sys2Proof.Machine
end

section
/-! SUPPORT. What the decoder answers, read off its families, and from it the legacy machine-routine space
of family 0 (spec/30_encoding.md R84, R87). -/

namespace Sys2Proof

open Sys2Proof.Machine Sys2Proof.Safety
open Sys2Proof.Laws.OperandTuple (family)

variable {any : Bool} {w : Word} {i : Instr}

/-! ### A word that decodes decodes into its own family (R84) -/

theorem decodeWord_eq_ok_iff : decodeWord any w = .ok i ↔ symbolOf any w = some i := by
  unfold decodeWord
  cases symbolOf any w <;> simp

theorem family_decodeFamily0 (w : Word) : family (decodeFamily0 w) = 0x0 := by
  unfold decodeFamily0
  split_ifs <;> rfl

theorem family_of_decodeFamily8 (h : decodeFamily8 w = some i) : family i = 0x8 := by
  unfold decodeFamily8 at h
  split at h <;> cases h <;> rfl

theorem family_of_decodeFamilyE (h : decodeFamilyE w = some i) : family i = 0xE := by
  unfold decodeFamilyE at h
  split at h <;> cases h <;> rfl

theorem family_of_decodeFamilyF (h : decodeFamilyF w = some i) : family i = 0xF := by
  unfold decodeFamilyF at h
  split at h <;> cases h <;> rfl

/-- Families 0, 8, E and F have decoders of their own; 5 and 9 check d3 first; the others answer one
symbol. (Case `h_k` is family k - 1, and `h_17` is none of them.) -/
theorem family_of_symbolOf (h : symbolOf any w = some i) : family i = d0 w := by
  refine BitVec.eq_of_toNat_eq ?_
  unfold symbolOf at h
  split at h
  case h_1 hd => cases h; rw [hd, family_decodeFamily0]; rfl
  case h_6 hd =>
    split_ifs at h
    cases h; rw [hd]; rfl
  case h_9 hd => rw [hd, family_of_decodeFamily8 h]; rfl
  case h_10 hd =>
    split_ifs at h
    cases h; rw [hd]; rfl
  case h_15 hd => rw [hd, family_of_decodeFamilyE h]; rfl
  case h_16 hd => rw [hd, family_of_decodeFamilyF h]; rfl
  case h_17 => cases h
  all_goals
    next hd => cases h; rw [hd]; rfl

theorem d0_of_decodeWord (h : decodeWord any w = .ok i) : d0 w = family i :=
  (family_of_symbolOf (decodeWord_eq_ok_iff.mp h)).symm

/-! ### Family 0 (R87) -/

theorem decodeWord_family0 (any : Bool) (h : d0 w = 0x0) : decodeWord any w = .ok (decodeFamily0 w) :=
  decodeWord_eq_ok_iff.mpr (by rw [symbolOf, h]; rfl)

theorem decodeFamily0_eq_nop_iff : decodeFamily0 w = .nop ↔ w = 0x0000 := by
  unfold decodeFamily0
  split_ifs with h <;> simp [h]

theorem decodeWord_eq_nop_iff : decodeWord any w = .ok .nop ↔ w = 0x0000 := by
  constructor
  · intro h
    rw [decodeWord_family0 any (d0_of_decodeWord h)] at h
    exact decodeFamily0_eq_nop_iff.mp (Except.ok.inj h)
  · rintro rfl
    rfl

/-- The legacy machine routine has no path but its fault (R87, R131). -/
theorem exec_execMachineRoutine_faults (nnn : Addr12) (s : State) :
    Faults (.execMachineRoutine nnn) s (.notImplemented nnn) := rfl

/-- Settles O4: a word of family 0 goes to `decodeFamily0`, which gives Nop for 0000 alone; a word that
decodes to Nop is of Nop's family; and the machine routine's handler is its fault. -/
theorem machineRoutineSpaceIsNotImplemented : Obligations.MachineRoutineSpaceIsNotImplemented :=
  ⟨fun any _ => decodeWord_family0 any, fun _ _ => decodeWord_eq_nop_iff, exec_execMachineRoutine_faults⟩

end Sys2Proof
end

section
/-! SUPPORT. What every handler answers, said once for all of them: a state whose pc, stack, wait and status
are given by the instruction, or a fault that leaves the state as it was but for status
(spec/10_state.md R24, spec/60_exceptions.md R245, R246). -/

namespace Sys2Proof.Machine

open Sys2Proof.Safety

variable {s t : State} {P : State → Prop}

/-! ### A completed answer or a fault in place -/

/-- The answer is a next state with the property, or a fault raised on `s` itself. -/
def Answers (s : State) (P : State → Prop) (o : Out) : Prop :=
  (∃ t, o = .next t ∧ P t) ∨ ∃ kind, o = raise kind s

theorem Answers.prop_of_next {o : Out} (h : Answers s P o) (ho : o = .next t) : P t := by
  obtain ⟨t', rfl, hp⟩ | ⟨kind, rfl⟩ := h
  · cases ho; exact hp
  · cases ho

theorem Answers.raised_of_fault {o : Out} {f : Fault} (h : Answers s P o) (ho : o = .fault f) :
    ∃ kind, f = .raised kind { s with status := .faulted kind } := by
  obtain ⟨t, rfl, -⟩ | ⟨kind, rfl⟩ := h
  · cases ho
  · cases ho; exact ⟨kind, rfl⟩

theorem answers_next (h : P t) : Answers s P (.next t) := .inl ⟨t, rfl, h⟩

theorem answers_raise (kind : FaultKind) : Answers s P (raise kind s) := .inr ⟨kind, rfl⟩

theorem answers_ite {c : Prop} [Decidable c] {o o' : Out} (h : Answers s P o) (h' : Answers s P o') :
    Answers s P (if c then o else o') := by
  split
  · exact h
  · exact h'

theorem answers_readV {x : Nibble} {k : Byte → Out} (h : Answers s P (k (s.getV x))) :
    Answers s P (readV x s k) :=
  answers_ite (answers_raise _) h

theorem answers_readXY {x y : Nibble} {k : Byte → Byte → Out} (h : Answers s P (k (s.getV x) (s.getV y))) :
    Answers s P (readXY x y s k) :=
  answers_readV (answers_readV h)

theorem answers_readIndex {k : Word → Out} (h : Answers s P (k s.index)) : Answers s P (readIndex s k) :=
  answers_ite (answers_raise _) h

theorem answers_readDT {k : Byte → Out} (h : Answers s P (k s.dt)) : Answers s P (readDT s k) :=
  answers_ite (answers_raise _) h

theorem answers_readKeyOperand {x : Nibble} {k : Nibble → Out}
    (h : Answers s P (k (BitVec.ofNat 4 (s.getV x).toNat))) : Answers s P (readKeyOperand x s k) :=
  answers_readV (answers_ite (answers_raise _) h)

theorem answers_inBounds {i : Word} {n : Nat} {k : Out} (h : Answers s P k) : Answers s P (inBounds i n s k) :=
  answers_ite h (answers_raise _)

theorem answers_readFirstVs {n : Nat} {k : List Byte → Out} (h : Answers s P (k (s.v.toList.take n))) :
    Answers s P (readFirstVs n s k) := by
  unfold readFirstVs
  split
  · exact answers_raise _
  · exact h

theorem answers_pushStack {a : Word} {k : State → Out} (h : Answers s P (k { s with stack := a :: s.stack })) :
    Answers s P (pushStack a s k) :=
  answers_ite (answers_raise _) h

theorem answers_popStack {k : Word → State → Out}
    (h : ∀ a rest, s.stack = a :: rest → Answers s P (k a { s with stack := rest })) :
    Answers s P (popStack s k) := by
  unfold popStack
  split
  · exact answers_raise _
  · next a rest hs => exact h a rest hs

theorem answers_drawRandom {k : Byte → State → Out}
    (h : ∀ r rs d, Answers s P (k r { s with randoms := rs, draws := d })) : Answers s P (drawRandom s k) := by
  obtain ⟨r, rs, d, he⟩ := drawRandom_eq s k
  exact he ▸ h r rs d

/-! ### pc, stack, wait and status after an instruction -/

/-- The control part of a state: pc (R23), the return stack (R29), the key wait (R33), the status (R34). -/
structure Control where
  pc : Word
  stack : List Word
  wait : Option Nibble
  status : Status

/-- These fields of a state. -/
def State.control (s : State) : Control :=
  { pc := s.pc, stack := s.stack, wait := s.wait, status := s.status }

/-- The control part after an instruction that completes: the four jumps and the key wait each set what
their rule says (R133 to R136, R225), a skip taken adds 2 to pc (R140), and nothing else does. -/
def State.controlAfter (s : State) : Instr → Control
  | .ret => { s.control with pc := s.stack.headD s.pc, stack := s.stack.tail }
  | .jumpNNN nnn => { s.control with pc := addrOperand nnn }
  | .callSub nnn => { s.control with pc := addrOperand nnn, stack := s.pc :: s.stack }
  | .jumpToAddrNNNPlusV0 nnn => { s.control with pc := BitVec.ofNat 16 (nnn.toNat + (s.getV 0#4).toNat) }
  | .waitForKeyAndStoreInX x => { s.control with wait := some x, status := .waiting }
  | i => { s.control with pc := if skipTaken s i then s.pc + 2#16 else s.pc }

theorem State.control_skipIf (s : State) (c : Bool) :
    (s.skipIf c).control = { s.control with pc := if c then s.pc + 2#16 else s.pc } := by
  rw [State.skipIf_eq]
  rfl

theorem State.control_storeBytes (s : State) (a : Nat) (bs : List Byte) :
    (s.storeBytes a bs).control = s.control := by
  rw [State.storeBytes_eq]
  rfl

/-- Every handler, by the operands it reads: each read goes on or faults in place, and the state it ends
in has the control part of its rule. -/
theorem exec_answers (i : Instr) (s : State) :
    Answers s (fun t => t.control = s.controlAfter i) (exec i s) := by
  unfold exec
  cases i with
  | execMachineRoutine => exact answers_raise _
  | nop | clear | jumpNNN | storeNNInX | storeMemAddrNNNInRegI | waitForKeyAndStoreInX =>
    exact answers_next rfl
  | ret =>
    refine answers_popStack fun a rest hs => answers_next ?_
    rw [State.controlAfter, hs]
    rfl
  | callSub => exact answers_pushStack (answers_next rfl)
  | jumpToAddrNNNPlusV0 => exact answers_readV (answers_ite (answers_raise _) (answers_next rfl))
  | eqNN | notEqNN => exact answers_readV (answers_next (s.control_skipIf _))
  | eqY | notEqY => exact answers_readXY (answers_next (s.control_skipIf _))
  | skipIfKeyInXIsPressed | skipIfKeyInXIsNotPressed =>
    exact answers_readKeyOperand (answers_next (s.control_skipIf _))
  | addNNToX | storeYInX | storeYShiftedRightInX | storeYShiftedLeftInX | setIToMemAddrOfSpriteInX
  | setDTToX | setSTToX => exact answers_readV (answers_next rfl)
  | orYToX | andYToX | xorYToX | addYToX | subYFromX | subXFromY =>
    exact answers_readXY (answers_next rfl)
  | setXToRandomNumWithMaskNN => exact answers_drawRandom fun _ _ _ => answers_next rfl
  | storeValDTInX => exact answers_readDT (answers_next rfl)
  | addXToI => exact answers_readV (answers_readIndex (answers_next rfl))
  | drawSpriteInXY =>
    exact answers_readXY (answers_ite (answers_next rfl)
      (answers_readIndex (answers_inBounds (answers_next rfl))))
  | storeBCDOfXInI =>
    exact answers_readV (answers_readIndex (answers_inBounds (answers_next (s.control_storeBytes _ _))))
  | store0ToXInI =>
    exact answers_ite (answers_next rfl)
      (answers_readIndex (answers_readFirstVs (answers_inBounds (answers_next (s.control_storeBytes _ _)))))
  | fill0ToXWithValueInAddrI =>
    exact answers_ite (answers_next rfl) (answers_readIndex (answers_inBounds (answers_next rfl)))

variable {i : Instr}

theorem exec_control (h : exec i s = .next t) : t.control = s.controlAfter i :=
  (exec_answers i s).prop_of_next h

/-- A handler's fault leaves the state as it was but for status (R245, R246). -/
theorem exec_fault {f : Fault} (h : exec i s = .fault f) :
    ∃ kind, f = .raised kind { s with status := .faulted kind } :=
  (exec_answers i s).raised_of_fault h

theorem exec_pc (h : exec i s = .next t) : t.pc = (s.controlAfter i).pc :=
  congrArg Control.pc (exec_control h)

theorem exec_stack (h : exec i s = .next t) : t.stack = (s.controlAfter i).stack :=
  congrArg Control.stack (exec_control h)

theorem exec_status (h : exec i s = .next t) : t.status = (s.controlAfter i).status :=
  congrArg Control.status (exec_control h)

/-- (Cases `h_1` to `h_4` of `controlAfter` are the jumps, `h_5` the key wait, `h_6` every other one.) -/
theorem State.controlAfter_pc_of_not_jumps (s : State) (hj : jumps i = false) :
    (s.controlAfter i).pc = if skipTaken s i then s.pc + 2#16 else s.pc := by
  unfold State.controlAfter
  split
  case h_5 => rfl
  case h_6 => rfl
  all_goals cases hj

theorem State.controlAfter_status (s : State) (i : Instr) :
    (s.controlAfter i).status = s.status ∨ (s.controlAfter i).status = .waiting := by
  unfold State.controlAfter
  split
  case h_5 => exact .inr rfl
  all_goals exact .inl rfl

/-- (Case `h_7` of `skipTaken` and of `skips` is every instruction but the six skips.) -/
theorem skipTaken_of_not_skips (s : State) (hs : skips i = false) : skipTaken s i = false := by
  unfold skipTaken
  split
  case h_7 => rfl
  all_goals cases hs

theorem jumps_of_skips (hs : skips i = true) : jumps i = false := by
  unfold skips at hs
  split at hs
  case h_7 => cases hs
  all_goals rfl

theorem exec_callSub_of_room {nnn : Addr12} (hroom : s.stack.length < s.cfg.stackCap) :
    exec (.callSub nnn) s = .next { s with stack := s.pc :: s.stack, pc := addrOperand nnn } :=
  if_neg (Nat.not_le.mpr hroom)

end Sys2Proof.Machine
end

section
/-! SUPPORT. What a tick answers, by its case: not admitted, at the end of memory, a word that decodes, or
one that does not; and from it the cycle's claims (spec/40_cycle.md R112 to R114). -/

namespace Sys2Proof.Machine

open Sys2Proof.Safety

variable {s t : State} {k : Nat} {i : Instr}

/-! ### Admission (R110, R272) -/

theorem tickRefusal_eq_none_iff :
    s.tickRefusal = none ↔ (s.boot = .loaded ∨ s.boot = .ticked) ∧ s.status = .running := by
  unfold State.tickRefusal
  split <;> simp [*]

theorem tick_of_refusal {r : Refusal} (h : s.tickRefusal = some r) (k : Nat) : tick k s = .refused r := by
  simp only [tick, h]

theorem tick_refused_of_not_running (h : s.status ≠ .running) (k : Nat) : ∃ r, tick k s = .refused r := by
  cases hr : s.tickRefusal with
  | none => exact absurd (tickRefusal_eq_none_iff.mp hr).2 h
  | some r => exact ⟨r, tick_of_refusal hr k⟩

/-! ### An admitted tick (R112 to R116) -/

theorem atEnd_iff : s.atEnd = true ↔ s.cfg.memSize ≤ s.pc.toNat + 2 := decide_eq_true_iff

theorem atEnd_eq_false_iff : s.atEnd = false ↔ s.pc.toNat + 2 < s.cfg.memSize := by
  rw [← Bool.not_eq_true, atEnd_iff, Nat.not_le]

theorem fetchWord_toNat (s : State) :
    s.fetchWord.toNat = (s.byteAt s.pc.toNat).toNat * 256 + (s.byteAt (s.pc.toNat + 1)).toNat :=
  wordOfBytes_toNat _ _

@[simp] theorem State.started_fetchWord (s : State) (k : Nat) : (s.started k).fetchWord = s.fetchWord := rfl

theorem tick_of_atEnd (hr : s.tickRefusal = none) (he : s.atEnd = true) (k : Nat) :
    tick k s = .next { s.started k with status := .ended } := by
  simp only [tick, hr, he, if_true]

theorem tick_of_not_atEnd (hr : s.tickRefusal = none) (he : s.atEnd = false) (k : Nat) :
    tick k s = runInstruction (s.started k) := by
  simp only [tick, hr, he, Bool.false_eq_true, if_false]

theorem tick_of_ok (hr : s.tickRefusal = none) (he : s.atEnd = false)
    (hd : decodeWord s.cfg.decode5xynAny s.fetchWord = .ok i) (k : Nat) :
    tick k s = exec i ((s.started k).fetched (some i)) :=
  (tick_of_not_atEnd hr he k).trans (runInstruction_of_ok hd)

theorem tick_of_error {e : DecodeError} (hr : s.tickRefusal = none) (he : s.atEnd = false)
    (hd : decodeWord s.cfg.decode5xynAny s.fetchWord = .error e) (k : Nat) :
    tick k s = raise (.unknownOpcode s.fetchWord)
      ((s.started k).fetched (Config.freeLast s.draws s.fetchWord)) :=
  (tick_of_not_atEnd hr he k).trans (runInstruction_of_error (s := s.started k) hd)

/-- Settles O8: the tick is its `raise`, and the status that leaves admits no tick. -/
theorem unknownOpcodeStopsTheTick : Obligations.UnknownOpcodeStopsTheTick := by
  unfold Obligations.UnknownOpcodeStopsTheTick
  intro s k hr he hd
  exact ⟨_, tick_of_error hr he hd k, rfl, tick_refused_of_not_running (by simp)⟩

/-- A tick that fetches ends no run: its handler leaves status Running, or registers a key wait. -/
theorem tick_status_of_not_atEnd (he : s.atEnd = false) (h : tick k s = .next t) : t.status ≠ .ended := by
  obtain ⟨hr, ⟨hend, -⟩ | ⟨-, hrun⟩⟩ := tick_next h
  · rw [he] at hend
    cases hend
  · obtain ⟨i, -, hexec⟩ := runInstruction_next hrun
    have hrunning : s.status = .running := (tickRefusal_eq_none_iff.mp hr).2
    rw [exec_status hexec]
    obtain hst | hst := ((s.started k).fetched (some i)).controlAfter_status i <;> rw [hst]
    · simp [hrunning]
    · simp

/-- Settles O9: on one side the tick is `tick_of_atEnd`; on the other it is the decoded instruction's
handler, whose status is never Ended. -/
theorem endOfProgramAtTheEndOfMemory : Obligations.EndOfProgramAtTheEndOfMemory := by
  unfold Obligations.EndOfProgramAtTheEndOfMemory
  refine fun s k hr => ⟨fun hend => ?_, fun hin => ?_⟩
  · exact ⟨_, tick_of_atEnd hr (atEnd_iff.mpr hend) k, rfl, tick_refused_of_not_running (by simp)⟩
  · have he : s.atEnd = false := atEnd_eq_false_iff.mpr hin
    exact ⟨fetchWord_toNat s, fun i hd => ⟨.ticked, tick_of_ok hr he hd k⟩,
      fun t => tick_status_of_not_atEnd he⟩

/-! ### pc past the word (R113) -/

/-- A skip's condition reads the V registers and the key levels, which the cycle does not touch before the
handler runs. -/
theorem skipTaken_fetched_started (s : State) (k : Nat) (l : Option Instr) (i : Instr) :
    skipTaken ((s.started k).fetched l) i = skipTaken s i := by
  unfold skipTaken
  split <;> rfl

theorem tick_pc_of_not_jumps (hr : s.tickRefusal = none) (he : s.atEnd = false)
    (hd : decodeWord s.cfg.decode5xynAny s.fetchWord = .ok i) (h : tick k s = .next t)
    (hj : jumps i = false) : t.pc = if skipTaken s i then s.pc + 2 + 2 else s.pc + 2 := by
  rw [tick_of_ok hr he hd] at h
  rw [exec_pc h, State.controlAfter_pc_of_not_jumps _ hj, skipTaken_fetched_started]
  rfl

theorem tick_stack_of_callSub {nnn : Addr12} (hr : s.tickRefusal = none) (he : s.atEnd = false)
    (hd : decodeWord s.cfg.decode5xynAny s.fetchWord = .ok (.callSub nnn)) (h : tick k s = .next t) :
    t.stack = (s.pc + 2) :: s.stack := by
  rw [tick_of_ok hr he hd] at h
  exact exec_stack h

/-- A tick that faults has fetched, so pc is past the word, whether the decoder or a handler raised it. -/
theorem tick_fault_pc {kind : FaultKind} {u : State} (hr : s.tickRefusal = none) (he : s.atEnd = false)
    (h : tick k s = .fault (.raised kind u)) : u.pc = s.pc + 2 := by
  cases hd : decodeWord s.cfg.decode5xynAny s.fetchWord with
  | ok i =>
    rw [tick_of_ok hr he hd] at h
    obtain ⟨_, hf⟩ := exec_fault h
    cases hf
    rfl
  | error e =>
    rw [tick_of_error hr he hd] at h
    cases h
    rfl

/-- Settles O10: the handler starts with pc = p + 2 (`tick_of_ok`); what it leaves in pc and the stack is
`exec_control`, and a fault leaves pc where it was. -/
theorem pcIsPastTheWordWhenItRuns : Obligations.PcIsPastTheWordWhenItRuns := by
  unfold Obligations.PcIsPastTheWordWhenItRuns
  refine fun s k hr he => ⟨fun i hd => ⟨.ticked, tick_of_ok hr he hd k⟩, fun i t hd h => ⟨?_, ?_, ?_⟩,
    fun nnn hd hroom => ?_, fun kind u => tick_fault_pc hr he⟩
  · intro hs hj
    rw [tick_pc_of_not_jumps hr he hd h hj, skipTaken_of_not_skips s hs]
    rfl
  · intro hs
    exact tick_pc_of_not_jumps hr he hd h (jumps_of_skips hs)
  · rintro nnn rfl
    exact tick_stack_of_callSub hr he hd h
  · exact ⟨_, (tick_of_ok hr he hd k).trans (exec_callSub_of_room hroom), rfl⟩

end Sys2Proof.Machine
end

section
/-! SUPPORT. The word, the handler and the frame of Clear (spec/41_control.md R132). -/

namespace Sys2Proof.Machine

open Sys2Proof.Safety

variable {any : Bool} {w : Word}

/-! ### The word 00E0 (R87) -/

theorem decodeFamily0_eq_clear_iff : decodeFamily0 w = .clear ↔ w = 0x00E0 := by
  unfold decodeFamily0
  split_ifs with hnop hclear
  · simp [hnop]
  all_goals simp [hclear]

theorem decodeWord_eq_clear_iff : decodeWord any w = .ok .clear ↔ w = 0x00E0 := by
  constructor
  · intro h
    rw [decodeWord_family0 any (d0_of_decodeWord h)] at h
    exact decodeFamily0_eq_clear_iff.mp (Except.ok.inj h)
  · rintro rfl
    rfl

/-! ### The handler -/

theorem exec_clear (s : State) :
    exec .clear s = .next { s with fb := Framebuffer.blank s.cfg.dispW s.cfg.dispH } := rfl

/-- A grid of the display's size with every pixel Clear is the blank framebuffer. -/
theorem Framebuffer.eq_blank {cfg : Config} {fb : Framebuffer} (hf : fb.fits cfg = true)
    (hc : ∀ x y, fb.get x y = .clear) : fb = Framebuffer.blank cfg.dispW cfg.dispH :=
  Framebuffer.ext_get hf (Framebuffer.fits_blank cfg) fun x y _ _ =>
    (hc x y).trans (Framebuffer.get_blank cfg.dispW cfg.dispH x y).symm

/-- Settles O29: the handler always answers with the blank framebuffer in place of the old one
(`exec_clear`), and a framebuffer that was clear is the blank one already (`Framebuffer.eq_blank`). -/
theorem clearBlanksEveryPixel : Obligations.ClearBlanksEveryPixel := by
  unfold Obligations.ClearBlanksEveryPixel
  refine ⟨fun _ _ => decodeWord_eq_clear_iff, rfl, fun s => ⟨_, exec_clear s, rfl,
    State.byteAt_congr rfl rfl, Framebuffer.fits_blank s.cfg, Framebuffer.get_blank _ _, ?_⟩⟩
  intro hf hc
  rw [← Framebuffer.eq_blank hf hc]

end Sys2Proof.Machine
end

section
/-! SUPPORT. The words of family 8, the two operands where one holds no value, the result written before
the flag; and from them the addition that sets its carry (spec/43_alu.md R150, R157). -/

namespace Sys2Proof.Machine

open Sys2Proof.Safety

variable {w : Word} {i : Instr} {x y : Nibble} {s : State}

/-! ### Family 8 (R84) -/

theorem decodeWord_family8 (any : Bool) (hw : d0 w = 0x8) (h : decodeFamily8 w = some i) :
    decodeWord any w = .ok i := by
  rw [decodeWord_eq_ok_iff, symbolOf, hw]
  exact h

theorem decodeWord_addYToX (any : Bool) (x y : Nibble) :
    decodeWord any (wordOfNibbles 0x8 x y 0x4) = .ok (.addYToX x y) :=
  decodeWord_family8 any (d0_wordOfNibbles ..) (by simp [decodeFamily8])

/-! ### VX, then VY (R248) -/

theorem readXY_unwritten_left (hx : s.vUnwritten x = true) (y : Nibble) (k : Byte → Byte → Out) :
    readXY x y s k = raise (.uninitialised (.v x)) s :=
  readV_unwritten hx _

theorem readXY_unwritten_right (hx : Written s x) (hy : s.vUnwritten y = true) (k : Byte → Byte → Out) :
    readXY x y s k = raise (.uninitialised (.v y)) s :=
  (readV_written hx _).trans (readV_unwritten hy _)

/-! ### The result, then the flag (R150) -/

theorem State.onlyV_setResultThenFlag (s : State) (x : Nibble) (result flag : Byte) :
    OnlyV [x, regVF] s (s.setResultThenFlag x result flag) := by
  refine ⟨rfl, fun r hr => ?_, State.byteAt_congr rfl rfl⟩
  obtain ⟨hrx, hrF⟩ : r ≠ x ∧ r ≠ regVF := by simpa using hr
  simp [State.setResultThenFlag, State.getV_setV, State.vUnwritten_setV, hrx, hrF]

theorem State.holds_flag_setResultThenFlag (s : State) (x : Nibble) (result flag : Byte) :
    Holds (s.setResultThenFlag x result flag) regVF flag :=
  (s.setV x result).holds_setV regVF flag

/-- The flag's write leaves the result, unless it goes to the same register. -/
theorem State.holds_result_setResultThenFlag (s : State) (hx : x ≠ regVF) (result flag : Byte) :
    Holds (s.setResultThenFlag x result flag) x result := by
  constructor
  · rw [State.setResultThenFlag, State.getV_setV, if_neg hx, State.getV_setV_self]
  · rw [Written, State.setResultThenFlag, State.vUnwritten_setV, if_neg hx, State.vUnwritten_setV_self]

/-! ### Addition (R157) -/

theorem carryFlag_eq_ite (vx vy : Byte) :
    carryFlag vx vy = if 255 < vx.toNat + vy.toNat then 1 else 0 := by
  simp [carryFlag, flagByte]

theorem exec_addYToX_written (hx : Written s x) (hy : Written s y) :
    exec (.addYToX x y) s =
      .next (s.setResultThenFlag x (s.getV x + s.getV y) (carryFlag (s.getV x) (s.getV y))) := by
  rw [exec, execAddYToX, readXY_written hx hy]

/-- Settles O40: with both operands written the handler answers `exec_addYToX_written`, whose result and
flag the laws of `setResultThenFlag` give; otherwise its read of VX, then VY, faults. -/
theorem addSetsCarry : Obligations.AddSetsCarry := by
  unfold Obligations.AddSetsCarry
  refine fun x y s => ⟨fun any => decodeWord_addYToX any x y, fun hx hy => ⟨_, exec_addYToX_written hx hy,
    s.onlyV_setResultThenFlag x _ _, fun hxF => ?_, ?_⟩, fun hx => ?_, fun hx hy => ?_⟩
  · obtain ⟨hval, hwritten⟩ := s.holds_result_setResultThenFlag hxF
      (s.getV x + s.getV y) (carryFlag (s.getV x) (s.getV y))
    exact ⟨hwritten, by rw [hval, BitVec.toNat_add]⟩
  · rw [← carryFlag_eq_ite]
    exact s.holds_flag_setResultThenFlag x _ _
  · rw [Faults, exec, execAddYToX, readXY_unwritten_left hx, raise]
  · rw [Faults, exec, execAddYToX, readXY_unwritten_right hx hy, raise]

end Sys2Proof.Machine
end

section
/-! SUPPORT. The round trip between words and instructions, by the format a word is assembled in; which words
are reserved; and the operands read off a word (spec/30_encoding.md R82, R84 to R86). -/

namespace Sys2Proof

open Sys2Proof.Machine Sys2Proof.Safety

variable {any : Bool} {w : Word} {i : Instr}

/-! ### A word of a known family is assembled by its format (R81) -/

theorem fmtNNN_of_d0 {op : Nibble} (h : d0 w = op) : fmtNNN op (addrNNN w) = w := by
  rw [← h, fmtNNN_fields]

theorem fmtXNN_of_fields {op : Nibble} {nn : Byte} (h : d0 w = op) (hn : immNN w = nn) :
    fmtXNN op (d1 w) nn = w := by
  rw [← h, ← hn, fmtXNN_fields]

theorem wordOfNibbles_of_fields {op n : Nibble} (h : d0 w = op) (hn : d3 w = n) :
    wordOfNibbles op (d1 w) (d2 w) n = w := by
  rw [← h, ← hn, wordOfNibbles_fields]

theorem fmtNNN_inj {op : Nibble} {a b : Addr12} : fmtNNN op a = fmtNNN op b ↔ a = b :=
  ⟨fun h => by rw [← addrNNN_fmtNNN op a, h, addrNNN_fmtNNN], congrArg _⟩

/-! ### Decode of encode (R84, R85) -/

/-- The three exact words of family 0 are its addresses 000, 0E0 and 0EE, which no well-formed machine
routine has (R87). -/
theorem decodeFamily0_machineRoutine {nnn : Addr12} (h : machineRoutineAddrOk nnn = true) :
    decodeFamily0 (fmtNNN 0x0 nnn) = .execMachineRoutine nnn := by
  obtain ⟨⟨hnop, hclear⟩, hret⟩ : (nnn ≠ 0x000#12 ∧ nnn ≠ 0x0E0#12) ∧ nnn ≠ 0x0EE#12 := by
    simpa [machineRoutineAddrOk] using h
  have hne : ∀ a, nnn ≠ a → fmtNNN 0x0 nnn ≠ fmtNNN 0x0 a := fun _ => mt fmtNNN_inj.mp
  have hnop : fmtNNN 0x0 nnn ≠ 0x0000#16 := hne _ hnop
  have hclear : fmtNNN 0x0 nnn ≠ 0x00E0#16 := hne _ hclear
  have hret : fmtNNN 0x0 nnn ≠ 0x00EE#16 := hne _ hret
  rw [decodeFamily0, if_neg hnop, if_neg hclear, if_neg hret, addrNNN_fmtNNN]

/-- The word of a well-formed instruction has the instruction as its symbol. -/
theorem symbolOf_encode (h : i.wf any = true) : symbolOf any (encode i) = some i := by
  cases i with
  | nop | clear | ret => rfl
  | execMachineRoutine nnn =>
    rw [encode, symbolOf, d0_fmtNNN]
    exact congrArg some (decodeFamily0_machineRoutine h)
  | eqY x y n =>
    have hn : eqYNibbleOk any n = true := h
    simp [encode, symbolOf, hn]
  | jumpNNN | callSub | storeMemAddrNNNInRegI | jumpToAddrNNNPlusV0 => simp [encode, symbolOf]
  | eqNN | notEqNN | storeNNInX | addNNToX | setXToRandomNumWithMaskNN => simp [encode, symbolOf]
  | notEqY | drawSpriteInXY => simp [encode, symbolOf]
  | storeYInX | orYToX | andYToX | xorYToX | addYToX | subYFromX | storeYShiftedRightInX | subXFromY
  | storeYShiftedLeftInX => simp [encode, symbolOf, decodeFamily8]
  | skipIfKeyInXIsPressed | skipIfKeyInXIsNotPressed => simp [encode, symbolOf, decodeFamilyE]
  | storeValDTInX | waitForKeyAndStoreInX | setDTToX | setSTToX | addXToI | setIToMemAddrOfSpriteInX
  | storeBCDOfXInI | store0ToXInI | fill0ToXWithValueInAddrI => simp [encode, symbolOf, decodeFamilyF]

theorem decodeWord_encode (h : i.wf any = true) : decodeWord any (encode i) = .ok i :=
  decodeWord_eq_ok_iff.mpr (symbolOf_encode h)

/-- Settles O1: the two bytes of a word decode as the word does, and the word of a well-formed instruction
has that instruction as its symbol (`symbolOf_encode`). -/
theorem decodeOfEncodeGivesInstruction : Obligations.DecodeOfEncodeGivesInstruction := by
  unfold Obligations.DecodeOfEncodeGivesInstruction
  intro any i rest h
  rw [decode_bytesOfWord, decodeWord_encode h]

/-! ### Encode of decode (R84, R85) -/

theorem encode_decodeFamily0 (h : d0 w = 0x0) :
    encode (decodeFamily0 w) = w ∧ (decodeFamily0 w).wf any = true := by
  have hw : fmtNNN 0x0 (addrNNN w) = w := fmtNNN_of_d0 h
  unfold decodeFamily0
  split_ifs with hnop hclear hret
  · exact ⟨hnop.symm, rfl⟩
  · exact ⟨hclear.symm, rfl⟩
  · exact ⟨hret.symm, rfl⟩
  · refine ⟨hw, ?_⟩
    have hne : ∀ a : Addr12, w ≠ fmtNNN 0x0 a → addrNNN w ≠ a := fun a hwa ha => hwa (ha ▸ hw.symm)
    have h0 : addrNNN w ≠ 0x000#12 := hne _ hnop
    have h1 : addrNNN w ≠ 0x0E0#12 := hne _ hclear
    have h2 : addrNNN w ≠ 0x0EE#12 := hne _ hret
    simp [Instr.wf, machineRoutineAddrOk, h0, h1, h2]

theorem encode_of_decodeFamily8 (h : d0 w = 0x8) (hd : decodeFamily8 w = some i) :
    encode i = w ∧ i.wf any = true := by
  unfold decodeFamily8 at hd
  split at hd <;> cases hd
  all_goals
    next hn => exact ⟨wordOfNibbles_of_fields h (BitVec.eq_of_toNat_eq hn), rfl⟩

theorem encode_of_decodeFamilyE (h : d0 w = 0xE) (hd : decodeFamilyE w = some i) :
    encode i = w ∧ i.wf any = true := by
  unfold decodeFamilyE at hd
  split at hd <;> cases hd
  all_goals
    next hn => exact ⟨fmtXNN_of_fields h (BitVec.eq_of_toNat_eq hn), rfl⟩

theorem encode_of_decodeFamilyF (h : d0 w = 0xF) (hd : decodeFamilyF w = some i) :
    encode i = w ∧ i.wf any = true := by
  unfold decodeFamilyF at hd
  split at hd <;> cases hd
  all_goals
    next hn => exact ⟨fmtXNN_of_fields h (BitVec.eq_of_toNat_eq hn), rfl⟩

/-- A word with a symbol is that symbol's word, which is well-formed. (Case `h_k` is family k - 1, and
`h_17` is none of them.) -/
theorem encode_of_symbolOf (hd : symbolOf any w = some i) : encode i = w ∧ i.wf any = true := by
  unfold symbolOf at hd
  split at hd
  case h_1 h => cases hd; exact encode_decodeFamily0 (BitVec.eq_of_toNat_eq h)
  case h_6 h =>
    split_ifs at hd with hn
    cases hd
    exact ⟨wordOfNibbles_of_fields (BitVec.eq_of_toNat_eq h) rfl, hn⟩
  case h_9 h => exact encode_of_decodeFamily8 (BitVec.eq_of_toNat_eq h) hd
  case h_10 h =>
    split_ifs at hd with hn
    cases hd
    exact ⟨wordOfNibbles_of_fields (BitVec.eq_of_toNat_eq h) hn, rfl⟩
  case h_14 h => cases hd; exact ⟨wordOfNibbles_of_fields (BitVec.eq_of_toNat_eq h) rfl, rfl⟩
  case h_15 h => exact encode_of_decodeFamilyE (BitVec.eq_of_toNat_eq h) hd
  case h_16 h => exact encode_of_decodeFamilyF (BitVec.eq_of_toNat_eq h) hd
  case h_17 => cases hd
  case h_4 h | h_5 h | h_7 h | h_8 h | h_13 h =>
    cases hd; exact ⟨fmtXNN_of_fields (BitVec.eq_of_toNat_eq h) rfl, rfl⟩
  all_goals
    next h => cases hd; exact ⟨fmtNNN_of_d0 (BitVec.eq_of_toNat_eq h), rfl⟩

theorem encode_of_decodeWord (h : decodeWord any w = .ok i) : encode i = w ∧ i.wf any = true :=
  encode_of_symbolOf (decodeWord_eq_ok_iff.mp h)

/-- Settles O2: `encode_of_symbolOf`, family by family. -/
theorem encodeOfDecodeGivesWord : Obligations.EncodeOfDecodeGivesWord :=
  fun _ _ _ => encode_of_decodeWord

/-! ### The reserved words (R86) -/

theorem decodeFamily8_eq_none_iff :
    decodeFamily8 w = none ↔ d3 w ∈ ([0x8, 0x9, 0xA, 0xB, 0xC, 0xD, 0xF] : List Nibble) := by
  unfold decodeFamily8
  simp only [List.mem_cons, List.not_mem_nil, or_false, ← BitVec.toNat_inj]
  have hlt := (d3 w).isLt
  split
  case h_10 =>
    simp only [imp_false] at *
    simp only [BitVec.reduceToNat, true_iff]
    omega
  all_goals
    next hn => simp [hn]

theorem decodeFamilyE_eq_none_iff : decodeFamilyE w = none ↔ immNN w ∉ ([0x9E, 0xA1] : List Byte) := by
  unfold decodeFamilyE
  simp only [List.mem_cons, List.not_mem_nil, or_false, ← BitVec.toNat_inj]
  split
  case h_3 =>
    simp only [imp_false] at *
    simp only [BitVec.reduceToNat, true_iff]
    omega
  all_goals
    next hn => simp [hn]

theorem decodeFamilyF_eq_none_iff : decodeFamilyF w = none ↔
    immNN w ∉ ([0x07, 0x0A, 0x15, 0x18, 0x1E, 0x29, 0x33, 0x55, 0x65] : List Byte) := by
  unfold decodeFamilyF
  simp only [List.mem_cons, List.not_mem_nil, or_false, ← BitVec.toNat_inj]
  split
  case h_10 =>
    simp only [imp_false] at *
    simp only [BitVec.reduceToNat, true_iff]
    omega
  all_goals
    next hn => simp [hn]

theorem eqYNibbleOk_eq_false_iff {n : Nibble} : eqYNibbleOk any n = false ↔ n ≠ 0 ∧ any = false := by
  simp [eqYNibbleOk, and_comm]

/-- The words of R86 have no symbol, and no others. -/
theorem symbolOf_eq_none_iff : symbolOf any w = none ↔
    (d0 w = 0x9 ∧ d3 w ≠ 0) ∨
    (d0 w = 0xE ∧ immNN w ∉ ([0x9E, 0xA1] : List Byte)) ∨
    (d0 w = 0xF ∧ immNN w ∉ ([0x07, 0x0A, 0x15, 0x18, 0x1E, 0x29, 0x33, 0x55, 0x65] : List Byte)) ∨
    (d0 w = 0x5 ∧ d3 w ≠ 0 ∧ any = false) ∨
    (d0 w = 0x8 ∧ d3 w ∈ ([0x8, 0x9, 0xA, 0xB, 0xC, 0xD, 0xF] : List Nibble)) := by
  rw [← decodeFamilyE_eq_none_iff, ← decodeFamilyF_eq_none_iff, ← decodeFamily8_eq_none_iff,
    ← eqYNibbleOk_eq_false_iff]
  simp only [← BitVec.toNat_inj (x := d0 w)]
  have hlt := (d0 w).isLt
  unfold symbolOf
  split
  case h_17 =>
    exfalso
    simp only [imp_false] at *
    omega
  all_goals
    next h => simp [h]

theorem decodeWord_eq_error_iff {e : DecodeError} :
    decodeWord any w = .error e ↔ symbolOf any w = none ∧ e = .unknownOpcode w := by
  unfold decodeWord
  cases symbolOf any w <;> simp [eq_comm]

/-- Settles O3: the decoder's one error is for a word without a symbol, and `symbolOf_eq_none_iff` says
which those are. -/
theorem reservedWordsAreUnknownOpcode : Obligations.ReservedWordsAreUnknownOpcode := by
  unfold Obligations.ReservedWordsAreUnknownOpcode
  refine fun any w => ⟨?_, fun e he => (decodeWord_eq_error_iff.mp he).2⟩
  rw [decodeWord_eq_error_iff, ← symbolOf_eq_none_iff]
  simp

/-! ### The operands of a word (R82) -/

theorem d1_toNat (w : Word) : (d1 w).toNat = w.toNat / 256 % 16 := by
  rw [d1, BitVec.extractLsb'_toNat, Nat.shiftRight_eq_div_pow]

theorem d2_toNat (w : Word) : (d2 w).toNat = w.toNat / 16 % 16 := by
  rw [d2, BitVec.extractLsb'_toNat, Nat.shiftRight_eq_div_pow]

theorem d3_toNat (w : Word) : (d3 w).toNat = w.toNat % 16 := by
  rw [d3, BitVec.extractLsb'_toNat, Nat.shiftRight_zero]

theorem immNN_toNat (w : Word) : (immNN w).toNat = w.toNat % 256 := by
  rw [immNN, BitVec.extractLsb'_toNat, Nat.shiftRight_zero]

theorem addrNNN_toNat (w : Word) : (addrNNN w).toNat = w.toNat % 4096 := by
  rw [addrNNN, BitVec.extractLsb'_toNat, Nat.shiftRight_zero]

@[simp] theorem addrOperand_toNat (nnn : Addr12) : (addrOperand nnn).toNat = nnn.toNat := by
  rw [addrOperand, BitVec.toNat_setWidth]
  omega

/-- Settles O5: a word that decodes is its instruction's own (`encode_of_decodeWord`), and each field is a
range of digits of the word's number. -/
theorem operandTupleIsTheLowNibbles : Obligations.OperandTupleIsTheLowNibbles := by
  unfold Obligations.OperandTupleIsTheLowNibbles
  refine fun any w => ⟨fun i hd => ?_, ?_, ?_, addrOperand_toNat _⟩
  · rw [operandTuple, (encode_of_decodeWord hd).1]
  · rw [immNN_toNat, d2_toNat, d3_toNat]
    omega
  · rw [addrNNN_toNat, d1_toNat, d2_toNat, d3_toNat]
    omega

/-- Settles O6: seven closed words, each decoded by computation. -/
theorem wordsOfTheSpecDecodeAsItSays : Obligations.WordsOfTheSpecDecodeAsItSays := by
  unfold Obligations.WordsOfTheSpecDecodeAsItSays
  decide

end Sys2Proof
end

section
/-! SUPPORT. What an instruction leaves unchanged and why it faults, said once for every handler: the frame
of each piece of the state, and the ground of each fault kind (spec/10_state.md, spec/60_exceptions.md
R241, R242). -/

namespace Sys2Proof.Machine

open Sys2Proof.Safety

variable {s t : State} {i : Instr}

/-! ### The ground of a fault -/

/-- The register holds no value (R242). -/
def State.noValue (s : State) : RegName → Bool
  | .v x => s.vUnwritten x
  | .index => s.unwritten.index
  | .dt => s.unwritten.dt

/-- What a state shows when a handler raises the kind on it: no handler raises the three kinds of R83, R114
and R201, and Uninitialised names a register without a value. -/
def FaultGround (s : State) : FaultKind → Prop
  | .unknownOpcode _ => False
  | .boundsRegister _ => False
  | .boundsDisplay _ _ => False
  | .uninitialised r => s.noValue r = true
  | _ => True

/-- `Answers`, with the ground of the fault: a next state with the property, or a fault raised on `s` itself
that `s` shows the ground of. -/
def AnswersDuly (s : State) (P : State → Prop) (o : Out) : Prop :=
  (∃ t, o = .next t ∧ P t) ∨ ∃ kind, FaultGround s kind ∧ o = raise kind s

section
variable {P : State → Prop}

theorem AnswersDuly.prop_of_next {o : Out} (h : AnswersDuly s P o) (ho : o = .next t) : P t := by
  obtain ⟨t', rfl, hp⟩ | ⟨kind, -, rfl⟩ := h
  · cases ho; exact hp
  · cases ho

theorem AnswersDuly.ground_of_fault {o : Out} {kind : FaultKind} {u : State} (h : AnswersDuly s P o)
    (ho : o = .fault (.raised kind u)) : FaultGround s kind := by
  obtain ⟨t, rfl, -⟩ | ⟨kind', hk, rfl⟩ := h
  · cases ho
  · cases ho; exact hk

theorem AnswersDuly.not_refused {o : Out} (h : AnswersDuly s P o) (r : Refusal) : o ≠ .refused r := by
  obtain ⟨t, rfl, -⟩ | ⟨kind, -, rfl⟩ := h <;> nofun

theorem duly_next (h : P t) : AnswersDuly s P (.next t) := .inl ⟨t, rfl, h⟩

theorem duly_raise {kind : FaultKind} (h : FaultGround s kind) : AnswersDuly s P (raise kind s) :=
  .inr ⟨kind, h, rfl⟩

theorem duly_ite {c : Prop} [Decidable c] {o o' : Out} (h : c → AnswersDuly s P o)
    (h' : ¬c → AnswersDuly s P o') : AnswersDuly s P (if c then o else o') := by
  split
  · next hc => exact h hc
  · next hc => exact h' hc

theorem duly_readV {x : Nibble} {k : Byte → Out} (h : AnswersDuly s P (k (s.getV x))) :
    AnswersDuly s P (readV x s k) :=
  duly_ite (fun hx => duly_raise hx) fun _ => h

theorem duly_readXY {x y : Nibble} {k : Byte → Byte → Out}
    (h : AnswersDuly s P (k (s.getV x) (s.getV y))) : AnswersDuly s P (readXY x y s k) :=
  duly_readV (duly_readV h)

theorem duly_readIndex {k : Word → Out} (h : AnswersDuly s P (k s.index)) :
    AnswersDuly s P (readIndex s k) :=
  duly_ite (fun hi => duly_raise hi) fun _ => h

theorem duly_readDT {k : Byte → Out} (h : AnswersDuly s P (k s.dt)) : AnswersDuly s P (readDT s k) :=
  duly_ite (fun hd => duly_raise hd) fun _ => h

theorem duly_readKeyOperand {x : Nibble} {k : Nibble → Out}
    (h : AnswersDuly s P (k (BitVec.ofNat 4 (s.getV x).toNat))) :
    AnswersDuly s P (readKeyOperand x s k) :=
  duly_readV (duly_ite (fun _ => duly_raise trivial) fun _ => h)

theorem duly_inBounds {a : Word} {n : Nat} {o : Out} (h : AnswersDuly s P o) :
    AnswersDuly s P (inBounds a n s o) :=
  duly_ite (fun _ => h) fun _ => duly_raise trivial

theorem firstUnwritten_noValue {n : Nat} {x : Nibble} (h : firstUnwritten n s = some x) :
    s.noValue (.v x) = true := by
  obtain ⟨j, hj, rfl⟩ := Option.map_eq_some_iff.mp h
  obtain ⟨hlen, hmark, -⟩ := List.findIdx?_eq_some_iff_getElem.mp hj
  have hlt : j < 16 := by
    simp only [List.length_take, Vector.length_toList] at hlen
    omega
  simpa [State.noValue, State.vUnwritten, Nat.mod_eq_of_lt hlt] using hmark

theorem duly_readFirstVs {n : Nat} {k : List Byte → Out} (h : AnswersDuly s P (k (s.v.toList.take n))) :
    AnswersDuly s P (readFirstVs n s k) := by
  unfold readFirstVs
  split
  · next hx => exact duly_raise (firstUnwritten_noValue hx)
  · exact h

theorem duly_pushStack {a : Word} {k : State → Out}
    (h : AnswersDuly s P (k { s with stack := a :: s.stack })) : AnswersDuly s P (pushStack a s k) :=
  duly_ite (fun _ => duly_raise trivial) fun _ => h

theorem duly_popStack {k : Word → State → Out}
    (h : ∀ a rest, AnswersDuly s P (k a { s with stack := rest })) : AnswersDuly s P (popStack s k) := by
  unfold popStack
  split
  · exact duly_raise trivial
  · next a rest _ => exact h a rest

theorem duly_drawRandom {k : Byte → State → Out}
    (h : ∀ r rs d, AnswersDuly s P (k r { s with randoms := rs, draws := d })) :
    AnswersDuly s P (drawRandom s k) := by
  obtain ⟨r, rs, d, he⟩ := drawRandom_eq s k
  exact he ▸ h r rs d

end

/-! ### The frame of an instruction -/

/-- What the instruction leaves of `s` in `t`, piece by piece: memory (R57), the framebuffer (R31), I (R26),
the timers (R27, R28) and the V registers (R21); and that a register which holds a value still does. -/
structure Frame (i : Instr) (s t : State) : Prop where
  mem : storesToMemory i = false → t.mem = s.mem
  fb : writesScreen i = false → t.fb = s.fb
  index : writesIndex i = false → t.index = s.index ∧ t.unwritten.index = s.unwritten.index
  dt : (∀ x, i ≠ .setDTToX x) → t.dt = s.dt ∧ t.unwritten.dt = s.unwritten.dt
  st : (∀ x, i ≠ .setSTToX x) → t.st = s.st ∧ t.unwritten.st = s.unwritten.st
  v : ∀ r, r ∉ writtenVs i → t.getV r = s.getV r ∧ t.vUnwritten r = s.vUnwritten r
  written : AllWritten s → AllWritten t

/-- The fields that `Frame` speaks of: what programs compute with, control aside. -/
structure Data where
  v : Vector Byte 16
  index : Word
  dt : Byte
  st : Byte
  mem : Memory
  fb : Framebuffer
  unwritten : Unwritten

/-- These fields of a state. -/
def State.data (s : State) : Data :=
  { v := s.v, index := s.index, dt := s.dt, st := s.st, mem := s.mem, fb := s.fb, unwritten := s.unwritten }

/-- A state with the same data is in every instruction's frame. -/
theorem frame_of_data (h : t.data = s.data) : Frame i s t := by
  have hu : t.unwritten = s.unwritten := congrArg Data.unwritten h
  exact
    { mem := fun _ => congrArg Data.mem h
      fb := fun _ => congrArg Data.fb h
      index := fun _ => ⟨congrArg Data.index h, by rw [hu]⟩
      dt := fun _ => ⟨congrArg Data.dt h, by rw [hu]⟩
      st := fun _ => ⟨congrArg Data.st h, by rw [hu]⟩
      v := fun r _ => ⟨State.getV_congr (congrArg Data.v h) r, State.vUnwritten_congr (by rw [hu]) r⟩
      written := fun hs => by rwa [AllWritten, hu] }

theorem frame_skipIf (c : Bool) : Frame i s (s.skipIf c) := by
  rw [State.skipIf_eq]
  exact frame_of_data rfl

theorem Frame.trans {u : State} (h : Frame i s t) (h' : Frame i t u) : Frame i s u where
  mem hi := (h'.mem hi).trans (h.mem hi)
  fb hi := (h'.fb hi).trans (h.fb hi)
  index hi := ⟨(h'.index hi).1.trans (h.index hi).1, (h'.index hi).2.trans (h.index hi).2⟩
  dt hi := ⟨(h'.dt hi).1.trans (h.dt hi).1, (h'.dt hi).2.trans (h.dt hi).2⟩
  st hi := ⟨(h'.st hi).1.trans (h.st hi).1, (h'.st hi).2.trans (h.st hi).2⟩
  v r hr := ⟨(h'.v r hr).1.trans (h.v r hr).1, (h'.v r hr).2.trans (h.v r hr).2⟩
  written hs := h'.written (h.written hs)

/-- Every V register holds a value exactly when no V mark is set. -/
theorem unwritten_v_eq_replicate_iff : s.unwritten.v = Vector.replicate 16 false ↔ ∀ r, Written s r := by
  constructor
  · intro h r
    simp [Written, State.vUnwritten, h]
  · intro h
    refine Vector.ext fun j hj => ?_
    have hr := h (BitVec.ofNat 4 j)
    simpa [Written, State.vUnwritten, Nat.mod_eq_of_lt hj] using hr

theorem allWritten_setV (h : AllWritten s) (x : Nibble) (b : Byte) : AllWritten (s.setV x b) := by
  obtain ⟨hv, hrest⟩ := h
  refine ⟨unwritten_v_eq_replicate_iff.mpr fun r => ?_, hrest⟩
  rw [Written, State.vUnwritten_setV, unwritten_v_eq_replicate_iff.mp hv r, ite_self]

theorem frame_setV {x : Nibble} (hx : x ∈ writtenVs i) (b : Byte) : Frame i s (s.setV x b) where
  mem _ := rfl
  fb _ := rfl
  index _ := ⟨rfl, rfl⟩
  dt _ := ⟨rfl, rfl⟩
  st _ := ⟨rfl, rfl⟩
  v r hr := by
    have hne : r ≠ x := fun h => hr (h ▸ hx)
    rw [State.getV_setV, State.vUnwritten_setV, if_neg hne, if_neg hne]
    exact ⟨rfl, rfl⟩
  written hs := allWritten_setV hs x b

theorem frame_setResultThenFlag {x : Nibble} (hx : x ∈ writtenVs i) (hF : regVF ∈ writtenVs i)
    (result flag : Byte) : Frame i s (s.setResultThenFlag x result flag) :=
  (frame_setV hx result).trans (frame_setV hF flag)

theorem frame_fb (hi : writesScreen i = true) (fb : Framebuffer) : Frame i s { s with fb := fb } :=
  { frame_of_data (s := s) (t := s) rfl with fb := fun h => by simp [hi] at h }

theorem frame_storeBytes (hi : storesToMemory i = true) (a : Nat) (bs : List Byte) :
    Frame i s (s.storeBytes a bs) := by
  rw [State.storeBytes_eq]
  exact { frame_of_data (s := s) (t := s) rfl with mem := fun h => by simp [hi] at h }

theorem frame_setIndex (hi : writesIndex i = true) (w : Word) : Frame i s (s.setIndex w) :=
  { frame_of_data (s := s) (t := s) rfl with
    index := fun h => by simp [hi] at h
    written := fun ⟨hv, _, hdt, hst⟩ => ⟨hv, rfl, hdt, hst⟩ }

theorem frame_setDT (x : Nibble) (b : Byte) : Frame (.setDTToX x) s (s.setDT b) :=
  { frame_of_data (s := s) (t := s) rfl with
    dt := fun h => absurd rfl (h x)
    written := fun ⟨hv, hi, _, hst⟩ => ⟨hv, hi, rfl, hst⟩ }

theorem frame_setST (x : Nibble) (b : Byte) : Frame (.setSTToX x) s (s.setST b) :=
  { frame_of_data (s := s) (t := s) rfl with
    st := fun h => absurd rfl (h x)
    written := fun ⟨hv, hi, hdt, _⟩ => ⟨hv, hi, hdt, rfl⟩ }

/-- The registers that the load writes are those below its count (R185). -/
theorem mem_writtenVs_fill {x r : Nibble} :
    r ∈ writtenVs (.fill0ToXWithValueInAddrI x) ↔ r.toNat < x.toNat := by
  simp only [writtenVs, List.mem_map, List.mem_range]
  constructor
  · rintro ⟨j, hj, rfl⟩
    rw [BitVec.toNat_ofNat]
    exact (Nat.mod_le _ _).trans_lt hj
  · exact fun h => ⟨r.toNat, h, by simp⟩

/-- The load touches the marks of V registers alone. -/
theorem State.fillFirstVs_marks (s : State) (n : Nat) (f : Nat → Byte) :
    (s.fillFirstVs n f).unwritten.index = s.unwritten.index ∧
      (s.fillFirstVs n f).unwritten.dt = s.unwritten.dt ∧
      (s.fillFirstVs n f).unwritten.st = s.unwritten.st := by
  simp [State.fillFirstVs]

theorem frame_fillFirstVs (x : Nibble) (f : Nat → Byte) :
    Frame (.fill0ToXWithValueInAddrI x) s (s.fillFirstVs x.toNat f) := by
  obtain ⟨hindex, hdt, hst⟩ := s.fillFirstVs_marks x.toNat f
  refine ⟨fun _ => s.fillFirstVs_mem _ _, fun _ => s.fillFirstVs_fb _ _,
    fun _ => ⟨s.fillFirstVs_index _ _, hindex⟩, fun _ => ⟨s.fillFirstVs_dt _ _, hdt⟩,
    fun _ => ⟨s.fillFirstVs_st _ _, hst⟩, fun r hr => ?_,
    fun ⟨hv, hrest⟩ => ⟨unwritten_v_eq_replicate_iff.mpr fun r => ?_, ?_⟩⟩
  · rw [mem_writtenVs_fill] at hr
    rw [State.getV_fillFirstVs, State.vUnwritten_fillFirstVs, if_neg hr, if_neg hr]
    exact ⟨rfl, rfl⟩
  · rw [Written, State.vUnwritten_fillFirstVs, unwritten_v_eq_replicate_iff.mp hv r, ite_self]
  · rwa [hindex, hdt, hst]

/-- Every handler, by the operands it reads: each read goes on or faults on its ground, and the state it
ends in is in the instruction's frame. -/
theorem exec_duly (i : Instr) (s : State) : AnswersDuly s (Frame i s) (exec i s) := by
  unfold exec
  cases i with
  | execMachineRoutine => exact duly_raise trivial
  | nop | jumpNNN | waitForKeyAndStoreInX => exact duly_next (frame_of_data rfl)
  | clear => exact duly_next (frame_fb rfl _)
  | ret => exact duly_popStack fun _ _ => duly_next (frame_of_data rfl)
  | callSub => exact duly_pushStack (duly_next (frame_of_data rfl))
  | jumpToAddrNNNPlusV0 =>
    exact duly_readV (duly_ite (fun _ => duly_raise trivial) fun _ => duly_next (frame_of_data rfl))
  | eqNN | notEqNN => exact duly_readV (duly_next (frame_skipIf _))
  | eqY | notEqY => exact duly_readXY (duly_next (frame_skipIf _))
  | skipIfKeyInXIsPressed | skipIfKeyInXIsNotPressed =>
    exact duly_readKeyOperand (duly_next (frame_skipIf _))
  | storeNNInX => exact duly_next (frame_setV (by simp [writtenVs]) _)
  | addNNToX | storeYInX => exact duly_readV (duly_next (frame_setV (by simp [writtenVs]) _))
  | orYToX | andYToX | xorYToX => exact duly_readXY (duly_next (frame_setV (by simp [writtenVs]) _))
  | addYToX | subYFromX | subXFromY =>
    exact duly_readXY (duly_next (frame_setResultThenFlag (by simp [writtenVs]) (by simp [writtenVs]) _ _))
  | storeYShiftedRightInX | storeYShiftedLeftInX =>
    exact duly_readV (duly_next (frame_setResultThenFlag (by simp [writtenVs]) (by simp [writtenVs]) _ _))
  | setXToRandomNumWithMaskNN =>
    refine duly_drawRandom fun _ rs d => duly_next ?_
    exact Frame.trans (t := { s with randoms := rs, draws := d }) (frame_of_data rfl)
      (frame_setV (by simp [writtenVs]) _)
  | drawSpriteInXY =>
    have hF : regVF ∈ [regVF] := by simp
    exact duly_readXY (duly_ite (fun _ => duly_next (frame_setV hF _)) fun _ =>
      duly_readIndex (duly_inBounds (duly_next ((frame_fb rfl _).trans (frame_setV hF _)))))
  | storeMemAddrNNNInRegI => exact duly_next (frame_setIndex rfl _)
  | addXToI => exact duly_readV (duly_readIndex (duly_next (frame_setIndex rfl _)))
  | setIToMemAddrOfSpriteInX => exact duly_readV (duly_next (frame_setIndex rfl _))
  | storeValDTInX => exact duly_readDT (duly_next (frame_setV (by simp [writtenVs]) _))
  | setDTToX => exact duly_readV (duly_next (frame_setDT _ _))
  | setSTToX => exact duly_readV (duly_next (frame_setST _ _))
  | storeBCDOfXInI =>
    exact duly_readV (duly_readIndex (duly_inBounds (duly_next (frame_storeBytes rfl _ _))))
  | store0ToXInI =>
    exact duly_ite (fun _ => duly_next (frame_of_data rfl)) fun _ =>
      duly_readIndex (duly_readFirstVs (duly_inBounds (duly_next (frame_storeBytes rfl _ _))))
  | fill0ToXWithValueInAddrI =>
    exact duly_ite (fun _ => duly_next (frame_of_data rfl)) fun _ =>
      duly_readIndex (duly_inBounds (duly_next (frame_fillFirstVs _ _)))

theorem exec_frame (h : exec i s = .next t) : Frame i s t := (exec_duly i s).prop_of_next h

theorem exec_faultGround {kind : FaultKind} {u : State} (h : exec i s = .fault (.raised kind u)) :
    FaultGround s kind :=
  (exec_duly i s).ground_of_fault h

theorem exec_ne_refused (i : Instr) (s : State) (r : Refusal) : exec i s ≠ .refused r :=
  (exec_duly i s).not_refused r

theorem exec_cfg (h : exec i s = .next t) : t.cfg = s.cfg := congrArg HandlerFixed.cfg (exec_handlerFixed h)

end Sys2Proof.Machine
end

section
/-! SUPPORT. What no instruction but a named few changes: memory, the framebuffer, the return stack, the
timers, the V registers and I, pc and the rest of the control state; and what no fault changes. -/

namespace Sys2Proof.Machine

open Sys2Proof.Safety

variable {s t : State} {i : Instr}

/-! ### Faults (R241, R242, R245) -/

/-- Where every register holds a value, no register is without one. -/
theorem noValue_of_allWritten (h : AllWritten s) (r : RegName) : s.noValue r = false := by
  obtain ⟨hv, hindex, hdt, -⟩ := h
  cases r with
  | v x => exact unwritten_v_eq_replicate_iff.mp hv x
  | index => exact hindex
  | dt => exact hdt

/-- Settles O18: the ground of an Uninitialised fault is a register without a value. -/
theorem writtenRegistersAreReadWithoutFault : Obligations.WrittenRegistersAreReadWithoutFault := by
  unfold Obligations.WrittenRegistersAreReadWithoutFault
  intro i s u r hs hf
  have hground : s.noValue r = true := exec_faultGround hf
  rw [noValue_of_allWritten hs] at hground
  cases hground

/-- Settles O19: every fault of a handler is raised on the state it starts from (`exec_fault`). -/
theorem faultsLeaveTheStateAsItWas : Obligations.FaultsLeaveTheStateAsItWas :=
  fun _ _ _ => exec_fault

/-- Settles O20: a handler answers a next state or a fault that has its ground, and the three kinds have
none. -/
theorem handlersNeverRefuse : Obligations.HandlersNeverRefuse := by
  unfold Obligations.HandlersNeverRefuse
  refine fun i s => ⟨exec_ne_refused i s, fun kind u hf => ?_⟩
  have hground : FaultGround s kind := exec_faultGround hf
  refine ⟨?_, ?_, ?_⟩
  · rintro n rfl; exact hground
  · rintro a b rfl; exact hground
  · rintro w rfl; exact hground

/-! ### Memory (R57) -/

theorem sameBytes_of_mem (hm : t.mem = s.mem) (hc : t.cfg = s.cfg) : SameBytes s t := State.byteAt_congr hm hc

/-- Settles O21: an instruction that stores nothing has memory in its frame. -/
theorem onlyStoresChangeMemory : Obligations.OnlyStoresChangeMemory := by
  unfold Obligations.OnlyStoresChangeMemory
  intro i s t h hi
  have hmem : t.mem = s.mem := (exec_frame h).mem hi
  exact ⟨hmem, sameBytes_of_mem hmem (exec_cfg h)⟩

/-! ### The framebuffer (R31) -/

/-- The framebuffer stays a grid of the display's size, under the two instructions that write it and every
other one. -/
theorem exec_fits (hf : s.fb.fits s.cfg = true) (h : exec i s = .next t) : t.fb.fits t.cfg = true := by
  have hcfg : t.cfg = s.cfg := exec_cfg h
  cases hi : writesScreen i with
  | false => rwa [(exec_frame h).fb hi, hcfg]
  | true =>
    rw [hcfg]
    unfold writesScreen at hi
    split at hi
    case h_1 => cases h; exact Framebuffer.fits_blank s.cfg
    case h_2 =>
      obtain ⟨-, -, ⟨-, rfl⟩ | ⟨-, -, rfl⟩⟩ := execDrawSpriteInXY_next h
      · exact hf
      · exact togglePixels_fits hf _
    case h_3 => cases hi

/-- Settles O22: the frame gives the first clause and `exec_fits` the second; the display's own operations
check their bounds; and BoundsError::Display has no ground in a handler. -/
theorem framebufferChangesOnlyByClearAndDraw : Obligations.FramebufferChangesOnlyByClearAndDraw := by
  unfold Obligations.FramebufferChangesOnlyByClearAndDraw
  refine ⟨fun i s t h => (exec_frame h).fb, fun i s t => exec_fits, fun s x y p hout => ?_,
    fun s x y p hf hx hy => ?_, fun i s u x y hfault => ?_⟩
  · exact ⟨if_neg hout, if_neg hout⟩
  · exact ⟨_, if_pos ⟨hx, hy⟩, Framebuffer.get_set_self hf p hx hy,
      fun _ _ => Framebuffer.get_set_other s.fb p⟩
  · have hground : FaultGround s (.boundsDisplay x y) := exec_faultGround hfault
    exact hground

/-! ### The return stack (R29) -/

theorem pushStack_full (h : s.cfg.stackCap ≤ s.stack.length) (a : Word) (k : State → Out) :
    pushStack a s k = raise (.stackFull s.fetchAddr) s :=
  if_pos h

theorem pushStack_room (h : s.stack.length < s.cfg.stackCap) (a : Word) (k : State → Out) :
    pushStack a s k = k { s with stack := a :: s.stack } :=
  if_neg (Nat.not_le.mpr h)

theorem popStack_empty (h : s.stack = []) (k : Word → State → Out) :
    popStack s k = raise (.stackEmpty s.fetchAddr) s := by
  rw [popStack, h]

theorem popStack_cons {a : Word} {rest : List Word} (h : s.stack = a :: rest) (k : Word → State → Out) :
    popStack s k = k a { s with stack := rest } := by
  rw [popStack, h]

theorem State.controlAfter_stack_of_not_touchesStack (s : State) (hi : touchesStack i = false) :
    (s.controlAfter i).stack = s.stack := by
  unfold State.controlAfter
  split
  case h_1 | h_3 => cases hi
  all_goals rfl

/-- Settles O23: the four cases of push and pop, and the stack after every other instruction. -/
theorem stackIsLastInFirstOut : Obligations.StackIsLastInFirstOut := by
  unfold Obligations.StackIsLastInFirstOut
  refine ⟨fun s a k hfull => pushStack_full hfull.ge a k, fun s a k hroom => pushStack_room hroom a k,
    fun s k hempty => popStack_empty (List.length_eq_zero_iff.mp hempty) k, fun s a k hroom => ?_,
    fun i s t h hi => ?_⟩
  · rw [pushStack_room hroom]
    exact popStack_cons rfl k
  · rw [exec_stack h, State.controlAfter_stack_of_not_touchesStack s hi]

/-! ### The registers (R21, R26) -/

/-- Settles O26: both clauses are the frame's. -/
theorem registersOutsideTheListAreUnchanged : Obligations.RegistersOutsideTheListAreUnchanged :=
  fun _ _ _ h => ⟨(exec_frame h).v, (exec_frame h).index⟩

/-! ### pc and the control state (R24) -/

theorem State.controlAfter_wait_status (s : State) (hi : ∀ x, i ≠ .waitForKeyAndStoreInX x) :
    (s.controlAfter i).wait = s.wait ∧ (s.controlAfter i).status = s.status := by
  unfold State.controlAfter
  split
  case h_5 x => exact absurd rfl (hi x)
  all_goals exact ⟨rfl, rfl⟩

theorem exec_wait_status (h : exec i s = .next t) (hi : ∀ x, i ≠ .waitForKeyAndStoreInX x) :
    t.wait = s.wait ∧ t.status = s.status := by
  obtain ⟨hwait, hstatus⟩ := s.controlAfter_wait_status hi
  exact ⟨(congrArg Control.wait (exec_control h)).trans hwait, (exec_status h).trans hstatus⟩

/-- NNN + V0 is at most 0xFFF + 0xFF, so as a pc it does not wrap (R136). -/
theorem indexedTarget_toNat (nnn : Addr12) (v0 : Byte) :
    (BitVec.ofNat 16 (nnn.toNat + v0.toNat)).toNat = nnn.toNat + v0.toNat := by
  rw [BitVec.toNat_ofNat]
  omega

/-- Settles O27: the control part of the state after an instruction is `controlAfter` (`exec_control`), and
the fields that no handler writes are `exec_handlerFixed`. -/
theorem programCounterAfterEachInstruction : Obligations.ProgramCounterAfterEachInstruction := by
  unfold Obligations.ProgramCounterAfterEachInstruction
  intro i s t h
  have hpc : t.pc = (s.controlAfter i).pc := exec_pc h
  have hfixed : t.handlerFixed = s.handlerFixed := exec_handlerFixed h
  refine ⟨fun hs hj => ?_, fun hs => ?_, fun nnn hi => ?_, fun nnn hi => ?_, fun hi => ?_,
    congrArg HandlerFixed.cfg hfixed, congrArg HandlerFixed.boot hfixed, congrArg HandlerFixed.last hfixed,
    congrArg HandlerFixed.script hfixed, exec_wait_status h⟩
  · rw [hpc, s.controlAfter_pc_of_not_jumps hj, skipTaken_of_not_skips s hs]
    rfl
  · rw [hpc, s.controlAfter_pc_of_not_jumps (jumps_of_skips hs)]
    split
    · exact .inr rfl
    · exact .inl rfl
  · obtain rfl | rfl := hi
    · exact (congrArg BitVec.toNat hpc).trans (addrOperand_toNat nnn)
    · exact (congrArg BitVec.toNat hpc).trans (addrOperand_toNat nnn)
  · subst hi
    exact (congrArg BitVec.toNat hpc).trans (indexedTarget_toNat nnn _)
  · subst hi
    obtain ⟨a, rest, hs, rfl⟩ := execReturn_next h
    exact ⟨rest, hs⟩

/-! ### The timers (R27, R28, R111) -/

/-- A timer loses the elapsed periods, down to 0. -/
theorem decayTimer_toNat (b : Byte) (k : Nat) : (decayTimer b k).toNat = b.toNat - k := by
  unfold decayTimer
  split
  · next hb => simp [hb]
  · rw [BitVec.toNat_ofNat]
    omega

theorem decayTimer_decayTimer (b : Byte) (j k : Nat) : decayTimer (decayTimer b j) k = decayTimer b (j + k) := by
  refine BitVec.eq_of_toNat_eq ?_
  rw [decayTimer_toNat, decayTimer_toNat, decayTimer_toNat, Nat.sub_sub]

theorem State.decay_dt_toNat (s : State) (k : Nat) (h : s.unwritten.dt = false) :
    (s.decay k).dt.toNat = s.dt.toNat - k := by
  simp [h, decayTimer_toNat]

theorem State.decay_st_toNat (s : State) (k : Nat) (h : s.unwritten.st = false) :
    (s.decay k).st.toNat = s.st.toNat - k := by
  simp [h, decayTimer_toNat]

theorem State.decay_decay (s : State) (j k : Nat) : (s.decay j).decay k = s.decay (j + k) := by
  simp only [State.decay]
  congr 1
  · split
    · rfl
    · exact decayTimer_decayTimer s.dt j k
  · split
    · rfl
    · exact decayTimer_decayTimer s.st j k

/-- Settles O12: both timers go through `decayTimer`, which takes off the periods and adds up. -/
theorem decayTakesElapsedPeriodsOffBothTimers : Obligations.DecayTakesElapsedPeriodsOffBothTimers := by
  unfold Obligations.DecayTakesElapsedPeriodsOffBothTimers
  refine fun s j k => ⟨s.decay_dt_toNat k, s.decay_st_toNat k, fun h => ?_, fun h => ?_, rfl,
    s.decay_decay j k⟩
  · rw [State.decay_dt, if_pos h]
  · rw [State.decay_st, if_pos h]

theorem exec_storeValDTInX_written (x : Nibble) (h : s.unwritten.dt = false) :
    exec (.storeValDTInX x) s = .next (s.setV x s.dt) := by
  rw [exec, execStoreValDTInX, readDT_written h]

theorem exec_setDTToX_written {x : Nibble} (h : Written s x) :
    exec (.setDTToX x) s = .next (s.setDT (s.getV x)) := by
  rw [exec, execSetDTToX, readV_written h]

theorem exec_setSTToX_written {x : Nibble} (h : Written s x) :
    exec (.setSTToX x) s = .next (s.setST (s.getV x)) := by
  rw [exec, execSetSTToX, readV_written h]

/-- Settles O24: the timers are in every other instruction's frame; the three timer instructions answer
their one update; and decay is `decayTimer`. -/
theorem timersWrittenOnlyBySetAndDecay : Obligations.TimersWrittenOnlyBySetAndDecay := by
  unfold Obligations.TimersWrittenOnlyBySetAndDecay
  exact ⟨fun _ _ _ h => (exec_frame h).dt, fun _ _ _ h => (exec_frame h).st,
    fun x s hx => ⟨_, exec_setDTToX_written hx, rfl, rfl⟩,
    fun x s hdt => ⟨_, exec_storeValDTInX_written x hdt, s.getV_setV_self x s.dt⟩,
    fun x s hx => ⟨_, exec_setSTToX_written hx, rfl, rfl⟩,
    fun s k => ⟨s.decay_dt_toNat k, s.decay_st_toNat k, rfl⟩⟩

end Sys2Proof.Machine
end

section
/-! SUPPORT. What one step can do, said once, and what every step keeps: the machine's invariant, and a value
in every register; and what an admitted tick runs (spec/40_cycle.md R110 to R116, spec/60_exceptions.md
R257, spec/70_reset_and_hazards.md R272, R278). -/

namespace Sys2Proof.Machine

open Sys2Proof.Safety

variable {s t : State} {i : Instr}

/-! ### An admitted tick (R110, R272) -/

/-- A tick that is admitted answers: it ends the run, runs a handler, or raises UnknownOpcode. -/
theorem tick_ne_refused (hr : s.tickRefusal = none) (k : Nat) (r : Refusal) : tick k s ≠ .refused r := by
  cases he : s.atEnd with
  | true => rw [tick_of_atEnd hr he]; nofun
  | false =>
    cases hd : decodeWord s.cfg.decode5xynAny s.fetchWord with
    | ok i => rw [tick_of_ok hr he hd]; exact exec_ne_refused i _ r
    | error e => rw [tick_of_error hr he hd]; nofun

/-- Settles O11: `tickRefusal` names the refusal of each boot phase and status, and a tick it lets pass
answers (`tick_ne_refused`). -/
theorem tickNeedsRunningAndLoaded : Obligations.TickNeedsRunningAndLoaded := by
  unfold Obligations.TickNeedsRunningAndLoaded
  refine fun s k => ⟨fun hb => tick_of_refusal ?_ k, fun hb => tick_of_refusal ?_ k,
    fun hb hst => tick_of_refusal ?_ k, fun hb hst => tick_ne_refused ?_ k⟩
  · rw [State.tickRefusal, hb]
  · rw [State.tickRefusal, hb]
  · obtain hb | hb := hb <;> simp [State.tickRefusal, hb, hst]
  · exact tickRefusal_eq_none_iff.mpr ⟨hb, hst⟩

theorem step_of_script {m : HostMove} {rest : List HostMove} (h : s.script = m :: rest) :
    step s = hostMove m { s with script := rest } := by
  rw [step, drive, h]

theorem step_of_empty (h : s.script = []) : step s = unscripted s := by
  rw [step, drive, h]

theorem decodeWord_fetchWord_of_decode {any : Bool}
    (h : decode any [s.byteAt s.pc.toNat, s.byteAt (s.pc.toNat + 1)] = .ok (i, [])) :
    decodeWord any s.fetchWord = .ok i := by
  rw [decode_two] at h
  rw [State.fetchWord]
  split at h
  · next hd => cases h; exact hd
  · cases h

/-- Settles O7: with either script the step is a tick, on the state with the move taken, and an admitted tick
runs the instruction its word decodes to (`tick_of_ok`). -/
theorem stepRunsTheDecodedInstruction : Obligations.StepRunsTheDecodedInstruction := by
  unfold Obligations.StepRunsTheDecodedInstruction
  intro s i hr he hd
  have hword := decodeWord_fetchWord_of_decode hd
  refine ⟨fun k rest hs => ?_, fun hs => ?_⟩
  · rw [step_of_script hs]
    exact tick_of_ok (s := { s with script := rest }) hr he hword k
  · have hrunning : s.status ≠ .waiting := by
      rw [(tickRefusal_eq_none_iff.mp hr).2]
      nofun
    rw [step_of_empty hs, unscripted, if_neg hrunning]
    exact tick_of_ok (s := s.drawn) hr he hword _

/-! ### What a step can do (R256, R257) -/

/-- One move of the driver that completes: a tick, a key level set, the wait abandoned, a load, a load that
fails, or nothing (R256, R257). -/
inductive Moves (s : State) : State → Prop where
  | tick {k : Nat} {t : State} (h : tick k s = .next t) : Moves s t
  | setKey (key : Nibble) (pressed : Bool) : Moves s (deliverKey key pressed s)
  | abandon (h : s.wait.isSome = true ∨ s.status = .waiting) : Moves s s.abandoned
  | load (h : s.boot = .awaitingLoad) (rom : List Byte) :
    Moves s { s.storeBytes 0x200 (romPart s.cfg rom) with boot := .loaded }
  | loadFails (h : s.boot = .awaitingLoad) : Moves s
    { s.storeBytes 0x200 (romPart s.cfg (Config.freeLoad s.draws)) with
      boot := .loadFailed, draws := s.draws + 1 }
  | idle : Moves s s

theorem moves_of_hostMove {m : HostMove} (h : hostMove m s = .next t) : Moves s t := by
  cases m with
  | tick k => exact .tick h
  | setKey key pressed => cases h; exact .setKey key pressed
  | abandonWait => obtain ⟨hw, rfl⟩ := abandonWait_next h; exact .abandon (.inl hw)
  | load rom => obtain ⟨hb, rfl⟩ := loadRom_next h; exact .load hb rom
  | loadFails => obtain ⟨hb, rfl⟩ := loadFailure_next h; exact .loadFails hb

theorem moves_unscriptedWait (h : s.status = .waiting) (m : Option HostMove) :
    Moves s (unscriptedWait m s) := by
  unfold unscriptedWait
  split
  case h_1 key pressed => exact .setKey key pressed
  case h_2 => exact .abandon (.inr h)
  all_goals exact .idle

/-- A step that completes is a move on the state with the script's first move or a free value taken. -/
theorem step_next (h : step s = .next t) : ∃ rest d, Moves { s with script := rest, draws := d } t := by
  cases hs : s.script with
  | cons m rest =>
    rw [step_of_script hs] at h
    exact ⟨rest, s.draws, moves_of_hostMove h⟩
  | nil =>
    rw [step_of_empty hs, unscripted] at h
    refine ⟨s.script, s.draws + 1, ?_⟩
    split at h
    · next hw => cases h; exact moves_unscriptedWait (s := s.drawn) hw _
    · exact .tick h

/-! ### The invariant, instruction by instruction -/

theorem Config.wf_iff (c : Config) :
    c.wf = true ↔ 0x200 ≤ c.memSize ∧ c.memSize ≤ 0x10000 ∧ 1 ≤ c.dispW ∧ 1 ≤ c.dispH := by
  simp [Config.wf, and_assoc]

/-- The two stores check their bounds first, so memory stays in canonical form (R58). -/
theorem exec_mem_wf (hm : s.mem.wf s.cfg = true) (h : exec i s = .next t) : t.mem.wf t.cfg = true := by
  rw [exec_cfg h]
  cases hi : storesToMemory i with
  | false => rwa [(exec_frame h).mem hi]
  | true =>
    unfold storesToMemory at hi
    split at hi
    case h_1 =>
      obtain ⟨-, -, hb, rfl⟩ := execStoreBCDOfXInI_next h
      exact s.wf_storeBytes _ _ hm hb
    case h_2 x =>
      obtain ⟨-, rfl⟩ | ⟨-, -, hb, rfl⟩ := execStore0ToXInI_next h
      · exact hm
      · exact s.wf_storeBytes _ _ hm (by rw [List.length_take]; omega)
    case h_3 => cases hi

theorem exec_stack_le (hs : s.stack.length ≤ s.cfg.stackCap) (h : exec i s = .next t) :
    t.stack.length ≤ t.cfg.stackCap := by
  rw [exec_cfg h]
  cases hi : touchesStack i with
  | false => rwa [exec_stack h, s.controlAfter_stack_of_not_touchesStack hi]
  | true =>
    unfold touchesStack at hi
    split at hi
    case h_1 =>
      obtain ⟨a, rest, hrest, rfl⟩ := execReturn_next h
      rw [hrest, List.length_cons] at hs
      exact Nat.le_of_succ_le hs
    case h_2 =>
      obtain ⟨hroom, rfl⟩ := execCallSub_next h
      exact hroom
    case h_3 => cases hi

/-- A wait is outstanding after an instruction exactly when it is suspended in one (R33, R34). -/
theorem exec_wait_iff (hw : s.wait.isSome = true ↔ s.status = .waiting) (h : exec i s = .next t) :
    t.wait.isSome = true ↔ t.status = .waiting := by
  by_cases hi : ∃ x, i = .waitForKeyAndStoreInX x
  · obtain ⟨x, rfl⟩ := hi
    cases h
    simp
  · obtain ⟨hwait, hstatus⟩ := exec_wait_status h fun x hx => hi ⟨x, hx⟩
    rwa [hwait, hstatus]

/-- A handler that runs inside a tick keeps the invariant. -/
theorem exec_inv (hs : Inv s) (hb : s.boot = .ticked) (h : exec i s = .next t) : Inv t := by
  obtain ⟨hcfg, hmem, hstack, hfb, hwait, -, hlast⟩ := hs
  have hfixed : t.handlerFixed = s.handlerFixed := exec_handlerFixed h
  have hboot : t.boot = s.boot := congrArg HandlerFixed.boot hfixed
  have hl : t.last = s.last := congrArg HandlerFixed.last hfixed
  refine ⟨?_, exec_mem_wf hmem h, exec_stack_le hstack h, exec_fits hfb h, exec_wait_iff hwait h,
    .inr (hboot.trans hb), ?_⟩
  · rwa [exec_cfg h]
  · rwa [hl, exec_cfg h]

/-! ### The invariant, move by move -/

theorem tick_inv {k : Nat} (hs : Inv s) (h : tick k s = .next t) : Inv t := by
  obtain ⟨hcfg, hmem, hstack, hfb, hwait, -, hlast⟩ := hs
  obtain ⟨hr, hrun⟩ := tick_next h
  have hrunning : s.status = .running := (tickRefusal_eq_none_iff.mp hr).2
  obtain ⟨-, rfl⟩ | ⟨-, hrun⟩ := hrun
  · have hnone : ¬s.wait.isSome = true := by simp [hwait, hrunning]
    exact ⟨hcfg, hmem, hstack, hfb, iff_of_false hnone nofun, .inr rfl, hlast⟩
  · obtain ⟨i, hd, hexec⟩ := runInstruction_next hrun
    have hfetched : Inv ((s.started k).fetched (some i)) :=
      ⟨hcfg, hmem, hstack, hfb, hwait, .inr rfl, (encode_of_decodeWord hd).2⟩
    exact exec_inv hfetched rfl hexec

theorem deliverKey_inv (hs : Inv s) (key : Nibble) (pressed : Bool) : Inv (deliverKey key pressed s) := by
  obtain ⟨hcfg, hmem, hstack, hfb, hwait, hboot, hlast⟩ := hs
  unfold deliverKey
  split
  · exact ⟨hcfg, hmem, hstack, hfb, iff_of_false nofun nofun, .inl rfl, hlast⟩
  all_goals exact ⟨hcfg, hmem, hstack, hfb, hwait, hboot, hlast⟩

theorem abandoned_inv (hs : Inv s) (hw : s.wait.isSome = true ∨ s.status = .waiting) : Inv s.abandoned := by
  obtain ⟨hcfg, hmem, hstack, hfb, hwait, hboot, hlast⟩ := hs
  have hwaiting : s.status = .waiting := hw.elim hwait.mp id
  have hticked : s.boot = .ticked := hboot.resolve_left (by rw [hwaiting]; nofun)
  exact ⟨hcfg, hmem, hstack, hfb, iff_of_false nofun nofun, .inr hticked, hlast⟩

/-- What `load` copies fits in memory from 0x200 on (R56). -/
theorem romPart_le {cfg : Config} (hc : cfg.wf = true) (rom : List Byte) :
    0x200 + (romPart cfg rom).length ≤ cfg.memSize := by
  have hmin := ((Config.wf_iff cfg).mp hc).1
  rw [romPart, List.length_take]
  omega

/-- A load of any bytes, into any phase, keeps the invariant. -/
theorem load_inv (hs : Inv s) (hb : s.boot = .awaitingLoad) (rom : List Byte) (boot : BootPhase) (d : Nat) :
    Inv { s.storeBytes 0x200 (romPart s.cfg rom) with boot := boot, draws := d } := by
  obtain ⟨hcfg, hmem, hstack, hfb, hwait, hboot, hlast⟩ := hs
  have hrunning : s.status = .running := hboot.resolve_right (by rw [hb]; nofun)
  have hwf := s.wf_storeBytes 0x200 (romPart s.cfg rom) hmem (romPart_le hcfg rom)
  rw [State.storeBytes_eq]
  generalize (s.storeBytes 0x200 (romPart s.cfg rom)).mem = m at hwf ⊢
  exact ⟨hcfg, hwf, hstack, hfb, hwait, .inl hrunning, hlast⟩

theorem moves_inv (hs : Inv s) (h : Moves s t) : Inv t := by
  cases h with
  | tick h => exact tick_inv hs h
  | setKey key pressed => exact deliverKey_inv hs key pressed
  | abandon hw => exact abandoned_inv hs hw
  | load hb rom => exact load_inv hs hb rom .loaded _
  | loadFails hb => exact load_inv hs hb _ .loadFailed _
  | idle => exact hs

/-- Settles O15: a step is one of the moves (`step_next`), and each of them keeps the invariant. -/
theorem stepKeepsTheInvariant : Obligations.StepKeepsTheInvariant := by
  unfold Obligations.StepKeepsTheInvariant
  intro s t hs h
  obtain ⟨rest, d, hmove⟩ := step_next h
  exact moves_inv (s := { s with script := rest, draws := d }) hs hmove

/-! ### Every register written -/

theorem moves_allWritten (hs : AllWritten s) (h : Moves s t) : AllWritten t := by
  cases h with
  | tick h =>
    obtain ⟨-, ⟨-, rfl⟩ | ⟨-, hrun⟩⟩ := tick_next h
    · exact hs
    · obtain ⟨i, -, hexec⟩ := runInstruction_next hrun
      exact (exec_frame hexec).written hs
  | setKey key pressed =>
    unfold deliverKey
    split
    · exact allWritten_setV (s := s.setKeyLevel key true) hs _ (key.setWidth 8)
    all_goals exact hs
  | abandon => exact hs
  | load => rw [State.storeBytes_eq]; exact hs
  | loadFails => rw [State.storeBytes_eq]; exact hs
  | idle => exact hs

/-- Settles O17: no move takes a register's value away (`moves_allWritten`). -/
theorem stepKeepsEveryRegisterWritten : Obligations.StepKeepsEveryRegisterWritten := by
  unfold Obligations.StepKeepsEveryRegisterWritten
  intro s t hs h
  obtain ⟨rest, d, hmove⟩ := step_next h
  exact moves_allWritten (s := { s with script := rest, draws := d }) hs hmove

/-! ### A key wait (R225, R226, R278) -/

/-- What a step leaves as it was while register x waits. -/
def FrozenBut (x : Nibble) (s t : State) : Prop :=
  t.pc = s.pc ∧ t.index = s.index ∧ t.dt = s.dt ∧ t.st = s.st ∧ t.mem = s.mem ∧ t.stack = s.stack ∧
    t.fb = s.fb ∧ t.last = s.last ∧ t.cfg = s.cfg ∧
    ∀ r, r ≠ x → t.getV r = s.getV r ∧ t.vUnwritten r = s.vUnwritten r

/-- A press writes the waiting register; nothing else that the host does to a key reaches a register. -/
theorem deliverKey_frozenBut {x : Nibble} (hx : s.wait = some x) (key : Nibble) (pressed : Bool) :
    FrozenBut x s (deliverKey key pressed s) := by
  unfold deliverKey
  split
  · next y hy =>
    obtain rfl : x = y := Option.some.inj (hx.symm.trans hy)
    refine ⟨rfl, rfl, rfl, rfl, rfl, rfl, rfl, rfl, rfl, fun r hr => ?_⟩
    exact ⟨((s.setKeyLevel key true).getV_setV x r (key.setWidth 8)).trans (if_neg hr),
      ((s.setKeyLevel key true).vUnwritten_setV x r (key.setWidth 8)).trans (if_neg hr)⟩
  all_goals exact ⟨rfl, rfl, rfl, rfl, rfl, rfl, rfl, rfl, rfl, fun _ _ => ⟨rfl, rfl⟩⟩

theorem moves_frozenBut {x : Nibble} (hs : Inv s) (hx : s.wait = some x) (h : Moves s t) :
    FrozenBut x s t := by
  obtain ⟨-, -, -, -, hwait, hboot, -⟩ := hs
  have hwaiting : s.status = .waiting := hwait.mp (by rw [hx]; rfl)
  have hticked : s.boot = .ticked := hboot.resolve_left (by rw [hwaiting]; nofun)
  cases h with
  | tick h =>
    have hrunning := (tickRefusal_eq_none_iff.mp (tick_next h).1).2
    rw [hwaiting] at hrunning
    cases hrunning
  | setKey key pressed => exact deliverKey_frozenBut hx key pressed
  | load hb => rw [hticked] at hb; cases hb
  | loadFails hb => rw [hticked] at hb; cases hb
  | abandon | idle => exact ⟨rfl, rfl, rfl, rfl, rfl, rfl, rfl, rfl, rfl, fun _ _ => ⟨rfl, rfl⟩⟩

/-- Settles O14: during a wait no tick is admitted and no load is, so a step sets a key, abandons the wait or
does nothing. -/
theorem noInstructionRunsDuringAWait : Obligations.NoInstructionRunsDuringAWait := by
  unfold Obligations.NoInstructionRunsDuringAWait
  intro s t x hs hx h
  obtain ⟨rest, d, hmove⟩ := step_next h
  exact moves_frozenBut (s := { s with script := rest, draws := d }) hs hx hmove

/-! ### Reset (R39) -/

/-- Settles O16: the reset state is a literal, whose memory lists no byte and so reads as the font. -/
theorem resetMeetsTheInvariant : Obligations.ResetMeetsTheInvariant := by
  unfold Obligations.ResetMeetsTheInvariant
  refine ⟨by decide, by decide, by decide, rfl, rfl, rfl, rfl, rfl, rfl, rfl, rfl, fun a ha => ?_⟩
  exact dif_pos ha

end Sys2Proof.Machine
end

section
/-! SUPPORT. Control transfer and skips: what each handler answers where its operands hold values, and the
one piece of state it changes (spec/41_control.md, spec/42_skip.md, spec/46_timers_keys.md R220, R221). -/

namespace Sys2Proof.Machine

open Sys2Proof.Safety

variable {s : State}

/-! ### Control -/

theorem State.onlyPc_jump (s : State) (a : Word) : OnlyPc s (s.jump a) := ⟨rfl, sameBytes_of_mem rfl rfl⟩

/-- Settles O28: the word and the handler, each by computation. -/
theorem nopChangesNothing : Obligations.NopChangesNothing :=
  ⟨fun _ => decodeWord_eq_nop_iff.mpr rfl, fun _ => rfl⟩

theorem exec_ret_cons {a : Word} {rest : List Word} (h : s.stack = a :: rest) :
    exec .ret s = .next { s with stack := rest, pc := a } := by
  rw [exec, execReturn, popStack_cons h]
  rfl

theorem exec_ret_empty (h : s.stack = []) : Faults .ret s (.stackEmpty s.fetchAddr) := by
  rw [Faults, exec, execReturn, popStack_empty h, raise]

theorem exec_callSub_full (nnn : Addr12) (h : s.cfg.stackCap ≤ s.stack.length) :
    Faults (.callSub nnn) s (.stackFull s.fetchAddr) := by
  rw [Faults, exec, execCallSub, pushStack_full h, raise]

theorem State.onlyPcStack_update (s : State) (stack : List Word) (a : Word) :
    OnlyPcStack s { s with stack := stack, pc := a } :=
  ⟨rfl, sameBytes_of_mem rfl rfl⟩

/-- Settles O30: `popStack` by the two cases of the stack. -/
theorem returnPopsIntoPc : Obligations.ReturnPopsIntoPc :=
  ⟨fun s _ _ h => ⟨_, exec_ret_cons h, rfl, rfl, s.onlyPcStack_update _ _⟩, fun _ h => exec_ret_empty h⟩

/-- Settles O31: the handler is one jump, to the address as it stands. -/
theorem jumpSetsPc : Obligations.JumpSetsPc :=
  fun nnn s => ⟨s.jump (addrOperand nnn), rfl, addrOperand_toNat nnn, s.onlyPc_jump _⟩

/-- Settles O32: `pushStack` by whether there is room. -/
theorem callPushesThenJumps : Obligations.CallPushesThenJumps := by
  unfold Obligations.CallPushesThenJumps
  refine fun nnn s => ⟨fun hroom => ?_, fun hfull => exec_callSub_full nnn hfull.ge⟩
  exact ⟨_, exec_callSub_of_room hroom, addrOperand_toNat nnn, rfl, s.onlyPcStack_update _ _⟩

/-- Settles O33: the call left its pc on top of the caller's stack, and Return takes it off. -/
theorem returnComesBackAfterTheCall : Obligations.ReturnComesBackAfterTheCall := by
  unfold Obligations.ReturnComesBackAfterTheCall
  intro nnn s t u h hu
  obtain ⟨-, rfl⟩ := execCallSub_next h
  exact ⟨_, exec_ret_cons hu, rfl, rfl, u.onlyPcStack_update _ _⟩

theorem exec_jumpToAddrNNNPlusV0_written (nnn : Addr12) (h : Written s 0#4) :
    exec (.jumpToAddrNNNPlusV0 nnn) s =
      if s.cfg.memSize ≤ nnn.toNat + (s.getV 0#4).toNat then
        raise (.boundsMemory (nnn.toNat + (s.getV 0#4).toNat)) s
      else .next (s.jump (BitVec.ofNat 16 (nnn.toNat + (s.getV 0#4).toNat))) := by
  rw [exec, execJumpToAddrNNNPlusV0, readV_written h]

/-- Settles O34: the two sides of the handler's one check, and its read of V0. -/
theorem indexedJumpIsBoundsChecked : Obligations.IndexedJumpIsBoundsChecked := by
  unfold Obligations.IndexedJumpIsBoundsChecked
  refine fun nnn s => ⟨fun hw hin => ?_, fun hw hout => ?_, fun hw => if_pos hw⟩
  · exact ⟨_, (exec_jumpToAddrNNNPlusV0_written nnn hw).trans (if_neg (Nat.not_le.mpr hin)),
      indexedTarget_toNat nnn _, s.onlyPc_jump _⟩
  · exact (exec_jumpToAddrNNNPlusV0_written nnn hw).trans (if_pos hout)

/-! ### Skips -/

theorem State.onlyPc_skipIf (s : State) (c : Bool) : OnlyPc s (s.skipIf c) := by
  rw [State.skipIf_eq]
  exact ⟨rfl, sameBytes_of_mem rfl rfl⟩

theorem State.skipIf_not_pc (s : State) (c : Bool) :
    (s.skipIf !c).pc = if c then s.pc else s.pc + 2#16 := by
  cases c <;> rfl

theorem exec_eqNN_written {x : Nibble} (nn : Byte) (h : Written s x) :
    exec (.eqNN x nn) s = .next (s.skipIf (s.getV x == nn)) := by
  rw [exec, execEqNN, readV_written h]

theorem exec_notEqNN_written {x : Nibble} (nn : Byte) (h : Written s x) :
    exec (.notEqNN x nn) s = .next (s.skipIf !(s.getV x == nn)) := by
  rw [exec, execNotEqNN, readV_written h, bne]

theorem exec_eqY_written {x y : Nibble} (n : Nibble) (hx : Written s x) (hy : Written s y) :
    exec (.eqY x y n) s = .next (s.skipIf (s.getV x == s.getV y)) := by
  rw [exec, execEqY, readXY_written hx hy]

theorem exec_notEqY_written {x y : Nibble} (hx : Written s x) (hy : Written s y) :
    exec (.notEqY x y) s = .next (s.skipIf !(s.getV x == s.getV y)) := by
  rw [exec, execNotEqY, readXY_written hx hy, bne]

/-- Settles O35: both handlers are a `skipIf` on the one comparison, negated in the second. -/
theorem skipsComparingAnImmediate : Obligations.SkipsComparingAnImmediate := by
  unfold Obligations.SkipsComparingAnImmediate
  refine fun x nn s hx => ⟨⟨_, exec_eqNN_written nn hx, s.onlyPc_skipIf _, ?_⟩,
    ⟨_, exec_notEqNN_written nn hx, s.onlyPc_skipIf _, ?_⟩⟩
  · rw [State.skipIf_pc]
    simp
  · rw [State.skipIf_not_pc]
    simp

/-- Settles O36: as O35, with VY for the immediate. -/
theorem skipsComparingTwoRegisters : Obligations.SkipsComparingTwoRegisters := by
  unfold Obligations.SkipsComparingTwoRegisters
  refine fun x y n s hx hy => ⟨⟨_, exec_eqY_written n hx hy, s.onlyPc_skipIf _, ?_⟩,
    ⟨_, exec_notEqY_written hx hy, s.onlyPc_skipIf _, ?_⟩⟩
  · rw [State.skipIf_pc]
    simp
  · rw [State.skipIf_not_pc]
    simp

/-- A register whose number is a key's names that key. -/
theorem readKeyOperand_written {x key : Nibble} (hx : Written s x) (hkey : (s.getV x).toNat = key.toNat)
    (k : Nibble → Out) : readKeyOperand x s k = k key := by
  refine readKeyOperand_holds ⟨BitVec.eq_of_toNat_eq ?_, hx⟩ k
  rw [hkey, BitVec.toNat_setWidth]
  omega

theorem readKeyOperand_out {x : Nibble} (hx : Written s x) (hout : 16 ≤ (s.getV x).toNat)
    (k : Nibble → Out) : readKeyOperand x s k = raise (.keyOutOfRange (s.getV x)) s :=
  (readV_written hx _).trans (if_pos hout)

/-- Settles O37: both handlers are a `skipIf` on the level of the key that VX names, or the fault of
`readKeyOperand`. -/
theorem keySkipsReadTheLevel : Obligations.KeySkipsReadTheLevel := by
  unfold Obligations.KeySkipsReadTheLevel
  refine fun x s hx => ⟨fun key hkey => ⟨⟨s.skipIf (s.keyLevel key), ?_, s.onlyPc_skipIf _, s.skipIf_pc _⟩,
    ⟨s.skipIf !s.keyLevel key, ?_, s.onlyPc_skipIf _, s.skipIf_not_pc _⟩⟩, fun hout => ⟨?_, ?_⟩⟩
  · rw [exec, execSkipIfKeyInXIsPressed, readKeyOperand_written hx hkey]
  · rw [exec, execSkipIfKeyInXIsNotPressed, readKeyOperand_written hx hkey]
  · rw [Faults, exec, execSkipIfKeyInXIsPressed, readKeyOperand_out hx hout, raise]
  · rw [Faults, exec, execSkipIfKeyInXIsNotPressed, readKeyOperand_out hx hout, raise]

end Sys2Proof.Machine
end

section
/-! SUPPORT. Registers, the ALU, the timers and I: what each handler answers where its operands hold values,
its result as a number, and the frame it keeps (spec/43_alu.md, spec/44_index_memory.md section 1,
spec/46_timers_keys.md R222 to R224). -/

namespace Sys2Proof.Machine

open Sys2Proof.Safety

variable {s : State} {x y : Nibble}

/-! ### One register written -/

theorem State.onlyV_setV (s : State) (x : Nibble) (b : Byte) : OnlyV [x] s (s.setV x b) := by
  refine ⟨rfl, fun r hr => ?_, sameBytes_of_mem rfl rfl⟩
  have hne : r ≠ x := by simpa using hr
  rw [State.getV_setV, State.vUnwritten_setV, if_neg hne, if_neg hne]
  exact ⟨rfl, rfl⟩

theorem exec_addNNToX_written (nn : Byte) (h : Written s x) :
    exec (.addNNToX x nn) s = .next (s.setV x (s.getV x + nn)) := by
  rw [exec, execAddNNToX, readV_written h]

theorem exec_storeYInX_written (x : Nibble) (h : Written s y) :
    exec (.storeYInX x y) s = .next (s.setV x (s.getV y)) := by
  rw [exec, execStoreYInX, readV_written h]

/-- Settles O38: each handler writes one byte to VX. -/
theorem loadsAndImmediateAdd : Obligations.LoadsAndImmediateAdd := by
  unfold Obligations.LoadsAndImmediateAdd
  refine ⟨fun x nn s => ⟨s.setV x nn, rfl, s.holds_setV x nn, s.onlyV_setV x nn⟩, fun x nn s hx => ?_,
    fun x y s hy => ⟨_, exec_storeYInX_written x hy, s.holds_setV x _, s.onlyV_setV x _⟩⟩
  refine ⟨_, exec_addNNToX_written nn hx, s.vUnwritten_setV_self x _, ?_, s.onlyV_setV x _⟩
  rw [State.getV_setV_self, BitVec.toNat_add]

theorem exec_orYToX_written (hx : Written s x) (hy : Written s y) :
    exec (.orYToX x y) s = .next (s.setV x (s.getV x ||| s.getV y)) := by
  rw [exec, execOrYToX, readXY_written hx hy]

theorem exec_andYToX_written (hx : Written s x) (hy : Written s y) :
    exec (.andYToX x y) s = .next (s.setV x (s.getV x &&& s.getV y)) := by
  rw [exec, execAndYToX, readXY_written hx hy]

theorem exec_xorYToX_written (hx : Written s x) (hy : Written s y) :
    exec (.xorYToX x y) s = .next (s.setV x (s.getV x ^^^ s.getV y)) := by
  rw [exec, execXorYToX, readXY_written hx hy]

/-- Settles O39: each handler writes the bitwise result to VX, and to no other register. -/
theorem logicWritesNoFlag : Obligations.LogicWritesNoFlag := by
  unfold Obligations.LogicWritesNoFlag
  refine fun x y s hx hy => ⟨⟨_, exec_orYToX_written hx hy, s.vUnwritten_setV_self x _, s.onlyV_setV x _, ?_⟩,
    ⟨_, exec_andYToX_written hx hy, s.vUnwritten_setV_self x _, s.onlyV_setV x _, ?_⟩,
    ⟨_, exec_xorYToX_written hx hy, s.vUnwritten_setV_self x _, s.onlyV_setV x _, ?_⟩⟩
  · intro b; rw [State.getV_setV_self, BitVec.getLsbD_or]
  · intro b; rw [State.getV_setV_self, BitVec.getLsbD_and]
  · intro b; rw [State.getV_setV_self, BitVec.getLsbD_xor]

theorem exec_setXToRandomNumWithMaskNN_listed (x : Nibble) (nn : Byte) {r : Byte} {rest : List Byte}
    (h : s.randoms = r :: rest) :
    exec (.setXToRandomNumWithMaskNN x nn) s = .next ({ s with randoms := rest }.setV x (r &&& nn)) := by
  rw [exec, execSetXToRandomNumWithMaskNN, drawRandom, h]

/-- Settles O43: the listed byte, or whatever byte the draw gives, goes masked to VX; a mask of 0 leaves
nothing of it. -/
theorem randomIsMasked : Obligations.RandomIsMasked := by
  unfold Obligations.RandomIsMasked
  refine fun x nn s => ⟨fun r rest hr => ?_, ?_⟩
  · exact ⟨_, exec_setXToRandomNumWithMaskNN_listed x nn hr, State.holds_setV _ x _, State.onlyV_setV _ x _⟩
  · obtain ⟨r, rs, d, he⟩ := execSetXToRandomNumWithMaskNN_eq x nn s
    have hholds := State.holds_setV { s with randoms := rs, draws := d } x (r &&& nn)
    refine ⟨_, he, State.onlyV_setV { s with randoms := rs, draws := d } x _, fun hnn => ?_, r, hholds⟩
    rw [hnn, show r &&& 0 = 0 from BitVec.and_zero] at hholds ⊢
    exact hholds

/-! ### The result and the flag (R150) -/

theorem noBorrowFlag_eq_ite (a b : Byte) : noBorrowFlag a b = if b.toNat ≤ a.toNat then 1 else 0 := by
  simp [noBorrowFlag, flagByte]

theorem sub_toNat (a b : Byte) : (a - b).toNat = (a.toNat + 256 - b.toNat) % 256 := by
  rw [BitVec.toNat_sub]
  omega

theorem exec_subYFromX_written (hx : Written s x) (hy : Written s y) :
    exec (.subYFromX x y) s =
      .next (s.setResultThenFlag x (s.getV x - s.getV y) (noBorrowFlag (s.getV x) (s.getV y))) := by
  rw [exec, execSubYFromX, readXY_written hx hy]

theorem exec_subXFromY_written (hx : Written s x) (hy : Written s y) :
    exec (.subXFromY x y) s =
      .next (s.setResultThenFlag x (s.getV y - s.getV x) (noBorrowFlag (s.getV y) (s.getV x))) := by
  rw [exec, execSubXFromY, readXY_written hx hy]

/-- What a difference and its no-borrow flag leave, whichever register they go to (R158, R160). -/
theorem State.setResultThenFlag_sub (s : State) (x : Nibble) (a b : Byte) :
    OnlyV [x, regVF] s (s.setResultThenFlag x (a - b) (noBorrowFlag a b)) ∧
      (x ≠ regVF → Written (s.setResultThenFlag x (a - b) (noBorrowFlag a b)) x ∧
        ((s.setResultThenFlag x (a - b) (noBorrowFlag a b)).getV x).toNat =
          (a.toNat + 256 - b.toNat) % 256) ∧
      Holds (s.setResultThenFlag x (a - b) (noBorrowFlag a b)) regVF
        (if b.toNat ≤ a.toNat then 1 else 0) := by
  refine ⟨s.onlyV_setResultThenFlag x _ _, fun hxF => ?_, ?_⟩
  · obtain ⟨hval, hwritten⟩ := s.holds_result_setResultThenFlag hxF (a - b) (noBorrowFlag a b)
    exact ⟨hwritten, by rw [hval, sub_toNat]⟩
  · rw [← noBorrowFlag_eq_ite]
    exact s.holds_flag_setResultThenFlag x _ _

/-- Settles O41: both handlers answer a difference and its no-borrow flag, of the same two samples. -/
theorem subtractionsSetNoBorrow : Obligations.SubtractionsSetNoBorrow := by
  unfold Obligations.SubtractionsSetNoBorrow
  exact fun x y s hx hy => ⟨⟨_, exec_subYFromX_written hx hy, s.setResultThenFlag_sub x _ _⟩,
    ⟨_, exec_subXFromY_written hx hy, s.setResultThenFlag_sub x _ _⟩⟩

theorem flagByte_toNat (b : Bool) : (flagByte b).toNat = b.toNat := by cases b <;> rfl

theorem lowBitFlag_toNat (b : Byte) : (lowBitFlag b).toNat = b.toNat % 2 := by
  rw [lowBitFlag, flagByte_toNat, BitVec.getLsbD, Nat.toNat_testBit, pow_zero, Nat.div_one]

theorem highBitFlag_toNat (b : Byte) : (highBitFlag b).toNat = b.toNat / 128 := by
  rw [highBitFlag, flagByte_toNat, BitVec.getLsbD, Nat.toNat_testBit]
  omega

theorem exec_storeYShiftedRightInX_written (x : Nibble) (h : Written s y) :
    exec (.storeYShiftedRightInX x y) s =
      .next (s.setResultThenFlag x (s.getV y >>> 1) (lowBitFlag (s.getV y))) := by
  rw [exec, execStoreYShiftedRightInX, readV_written h]

theorem exec_storeYShiftedLeftInX_written (x : Nibble) (h : Written s y) :
    exec (.storeYShiftedLeftInX x y) s =
      .next (s.setResultThenFlag x (s.getV y <<< 1) (highBitFlag (s.getV y))) := by
  rw [exec, execStoreYShiftedLeftInX, readV_written h]

/-- Settles O42: each handler answers the shift of VY's sample and the bit it shifts out, whose numbers are
the halves of VY's. -/
theorem shiftsTakeVYAndSetTheLostBit : Obligations.ShiftsTakeVYAndSetTheLostBit := by
  unfold Obligations.ShiftsTakeVYAndSetTheLostBit
  refine fun x y s hy => ⟨⟨_, exec_storeYShiftedRightInX_written x hy, s.onlyV_setResultThenFlag x _ _,
    fun hxF => ?_, ?_⟩, ⟨_, exec_storeYShiftedLeftInX_written x hy, s.onlyV_setResultThenFlag x _ _,
    fun hxF => ?_, ?_⟩⟩
  · obtain ⟨hval, hwritten⟩ := s.holds_result_setResultThenFlag hxF
      (s.getV y >>> 1) (lowBitFlag (s.getV y))
    exact ⟨hwritten, by rw [hval, BitVec.toNat_ushiftRight, Nat.shiftRight_eq_div_pow]⟩
  · obtain ⟨hval, hwritten⟩ := s.holds_flag_setResultThenFlag x (s.getV y >>> 1) (lowBitFlag (s.getV y))
    exact ⟨hwritten, by rw [hval, lowBitFlag_toNat]⟩
  · obtain ⟨hval, hwritten⟩ := s.holds_result_setResultThenFlag hxF
      (s.getV y <<< 1) (highBitFlag (s.getV y))
    exact ⟨hwritten, by rw [hval, BitVec.toNat_shiftLeft, Nat.shiftLeft_eq]⟩
  · obtain ⟨hval, hwritten⟩ := s.holds_flag_setResultThenFlag x (s.getV y <<< 1) (highBitFlag (s.getV y))
    exact ⟨hwritten, by rw [hval, highBitFlag_toNat]⟩

/-- A flag written to VF is 0 or 1. -/
theorem State.holds_flagByte (s : State) (b : Bool) :
    Holds (s.setV regVF (flagByte b)) regVF 0 ∨ Holds (s.setV regVF (flagByte b)) regVF 1 := by
  cases b with
  | false => exact .inl (s.holds_setV regVF 0)
  | true => exact .inr (s.holds_setV regVF 1)

/-- Settles O44: the last write of each of these handlers is a `flagByte` to VF. -/
theorem flagsAreZeroOrOne : Obligations.FlagsAreZeroOrOne := by
  unfold Obligations.FlagsAreZeroOrOne
  intro i s t x y n hi h
  simp only [List.mem_cons, List.not_mem_nil, or_false] at hi
  obtain rfl | rfl | rfl | rfl | rfl | rfl := hi
  · obtain ⟨-, -, rfl⟩ := execAddYToX_next h; exact State.holds_flagByte _ _
  · obtain ⟨-, -, rfl⟩ := execSubYFromX_next h; exact State.holds_flagByte _ _
  · obtain ⟨-, rfl⟩ := execStoreYShiftedRightInX_next h; exact State.holds_flagByte _ _
  · obtain ⟨-, -, rfl⟩ := execSubXFromY_next h; exact State.holds_flagByte _ _
  · obtain ⟨-, rfl⟩ := execStoreYShiftedLeftInX_next h; exact State.holds_flagByte _ _
  · obtain ⟨-, -, ⟨-, rfl⟩ | ⟨-, -, rfl⟩⟩ := execDrawSpriteInXY_next h <;> exact State.holds_flagByte _ _

/-! ### I (R180 to R182) -/

theorem State.onlyIndex_setIndex (s : State) (w : Word) : OnlyIndex s (s.setIndex w) :=
  ⟨rfl, sameBytes_of_mem rfl rfl⟩

theorem exec_addXToI_written (hx : Written s x) (hi : s.unwritten.index = false) :
    exec (.addXToI x) s = .next (s.setIndex (s.index + (s.getV x).setWidth 16)) := by
  rw [exec, execAddXToI, readV_written hx, readIndex_written hi]

theorem exec_setIToMemAddrOfSpriteInX_written (hx : Written s x) :
    exec (.setIToMemAddrOfSpriteInX x) s = .next (s.setIndex (BitVec.ofNat 16 ((s.getV x).toNat * 5))) := by
  rw [exec, execSetIToMemAddrOfSpriteInX, readV_written hx]

/-- Settles O45: each handler is one `setIndex`; 255 times 5 is below 2^16. -/
theorem indexSetters : Obligations.IndexSetters := by
  unfold Obligations.IndexSetters
  refine ⟨fun nnn s => ⟨s.setIndex (addrOperand nnn), rfl, addrOperand_toNat nnn, rfl,
    s.onlyIndex_setIndex _⟩, fun x s hx hi => ⟨_, exec_addXToI_written hx hi, ?_, s.onlyIndex_setIndex _⟩,
    fun x s hx => ⟨_, exec_setIToMemAddrOfSpriteInX_written hx, ?_, rfl, s.onlyIndex_setIndex _⟩⟩
  · rw [State.setIndex_index, BitVec.toNat_add, BitVec.toNat_setWidth]
    omega
  · rw [State.setIndex_index, BitVec.toNat_ofNat]
    omega

/-! ### The timers (R222 to R224) -/

/-- Settles O54: the three handlers' one update each. -/
theorem timerCopies : Obligations.TimerCopies := by
  unfold Obligations.TimerCopies
  exact ⟨fun x s hdt => ⟨_, exec_storeValDTInX_written x hdt, s.holds_setV x _, s.onlyV_setV x _⟩,
    fun x s hx => ⟨_, exec_setDTToX_written hx, rfl, rfl, sameBytes_of_mem rfl rfl⟩,
    fun x s hx => ⟨_, exec_setSTToX_written hx, rfl, rfl, sameBytes_of_mem rfl rfl⟩⟩

/-! ### Unwritten operands (R242, R248) -/

/-- A handler whose first read finds no value in VX faults. -/
theorem faults_of_read_first {i : Instr} {o : Out} (hx : s.vUnwritten x = true)
    (he : exec i s = if s.vUnwritten x then raise (.uninitialised (.v x)) s else o) :
    Faults i s (.uninitialised (.v x)) :=
  he.trans (if_pos hx)

/-- A handler whose first read finds a value in VX, and whose second finds none in VY, faults. -/
theorem faults_of_read_second {i : Instr} {o o' : Out} (hx : Written s x) (hy : s.vUnwritten y = true)
    (he : exec i s = if s.vUnwritten x then o' else
      if s.vUnwritten y then raise (.uninitialised (.v y)) s else o) :
    Faults i s (.uninitialised (.v y)) :=
  he.trans ((if_neg (Bool.eq_false_iff.mp hx)).trans (if_pos hy))

/-- Settles O56: each of these handlers begins with a read of the register. -/
theorem unwrittenVXFaultsFirst : Obligations.UnwrittenVXFaultsFirst := by
  unfold Obligations.UnwrittenVXFaultsFirst
  intro x y n nn s hx i hi
  simp only [List.mem_cons, List.not_mem_nil, or_false] at hi
  rcases hi with rfl | rfl | rfl | rfl | rfl | rfl | rfl | rfl | rfl | rfl | rfl | rfl | rfl | rfl | rfl |
    rfl | rfl | rfl | rfl | rfl | rfl | rfl
  all_goals exact faults_of_read_first hx rfl

/-! ### A count above 0 reads I (R184, R185, R200) -/

theorem exec_store0ToXInI_of_ne (hx : x ≠ 0) : exec (.store0ToXInI x) s =
    readIndex s fun i => readFirstVs x.toNat s fun vs =>
      inBounds i x.toNat s (.next (s.storeBytes i.toNat vs)) :=
  if_neg hx

theorem exec_fill0ToXWithValueInAddrI_of_ne (hx : x ≠ 0) : exec (.fill0ToXWithValueInAddrI x) s =
    readIndex s fun i =>
      inBounds i x.toNat s (.next (s.fillFirstVs x.toNat fun j => s.byteAt (i.toNat + j))) :=
  if_neg hx

/-- The state after a draw of n rows from the address on, at the values of VX and VY (R200, R203). -/
def State.afterDraw (s : State) (x y n : Nibble) (a : Nat) : State :=
  let drawn := drawSprite s (s.getV x) (s.getV y) (s.bytesAt a n.toNat)
  { s with fb := drawn.1 }.setV regVF (flagByte drawn.2)

theorem exec_drawSpriteInXY_of_ne {n : Nibble} (hx : Written s x) (hy : Written s y) (hn : n ≠ 0) :
    exec (.drawSpriteInXY x y n) s =
      readIndex s fun i => inBounds i n.toNat s (.next (s.afterDraw x y n i.toNat)) := by
  rw [exec, execDrawSpriteInXY, readXY_written hx hy]
  exact if_neg hn

/-- Settles O57: each handler's reads, in the order of its definition, up to the first that faults. -/
theorem unwrittenReadsFaultInOrder : Obligations.UnwrittenReadsFaultInOrder := by
  unfold Obligations.UnwrittenReadsFaultInOrder
  refine fun x y n s => ⟨fun hx hy i hi => ?_, fun hx hy hi => ⟨?_, ?_, fun hn => ?_⟩, fun hdt => ?_,
    fun hx hi => ⟨?_, ?_⟩, fun hlt hi hy hbelow => ?_⟩
  · simp only [List.mem_cons, List.not_mem_nil, or_false] at hi
    rcases hi with rfl | rfl | rfl | rfl | rfl | rfl | rfl | rfl | rfl
    all_goals exact faults_of_read_second hx hy rfl
  · rw [Faults, exec, execAddXToI, readV_written hx, readIndex_unwritten hi, raise]
  · rw [Faults, exec, execStoreBCDOfXInI, readV_written hx, readIndex_unwritten hi, raise]
  · rw [Faults, exec_drawSpriteInXY_of_ne hx hy hn, readIndex_unwritten hi, raise]
  · rw [Faults, exec, execStoreValDTInX, readDT_unwritten hdt, raise]
  · rw [Faults, exec_store0ToXInI_of_ne hx, readIndex_unwritten hi, raise]
  · rw [Faults, exec_fill0ToXWithValueInAddrI_of_ne hx, readIndex_unwritten hi, raise]
  · have hx : x ≠ 0 := by rintro rfl; exact absurd hlt (by simp)
    have hfirst : firstUnwritten x.toNat s = some y := firstUnwritten_some (BitVec.lt_def.mp hlt) hy hbelow
    rw [Faults, exec_store0ToXInI_of_ne hx, readIndex_written hi, readFirstVs, hfirst]
    rfl

end Sys2Proof.Machine
end

section
/-! SUPPORT. Bytes stored and read back: by the fetch, the decimal store and the register transfers
(spec/20_memory.md R52, R57 to R59, spec/44_index_memory.md section 2). -/

namespace Sys2Proof.Machine

open Sys2Proof.Safety

variable {s t : State} {x : Nibble}

/-! ### Stored bytes (R59) -/

theorem State.byteAt_storeBytes_inside (s : State) (a : Nat) {bs : List Byte} {j : Nat} (h : j < bs.length) :
    (s.storeBytes a bs).byteAt (a + j) = bs[j] := by
  rw [State.byteAt_storeBytes, if_pos (by omega), Nat.add_sub_cancel_left, List.getD_eq_getElem _ _ h]

theorem State.byteAt_storeBytes_outside (s : State) {a b : Nat} {bs : List Byte}
    (h : b < a ∨ a + bs.length ≤ b) : (s.storeBytes a bs).byteAt b = s.byteAt b := by
  rw [State.byteAt_storeBytes, if_neg (by omega)]

theorem State.onlyBytes_storeBytes (s : State) (a : Nat) (bs : List Byte) :
    OnlyBytes a bs.length s (s.storeBytes a bs) :=
  ⟨s.storeBytes_eq a bs, fun _ => s.byteAt_storeBytes_outside⟩

/-- Settles O50: `byteAt_storeBytes` inside and outside the stored range, and `wf_storeBytes`. -/
theorem storedBytesReadBack : Obligations.StoredBytesReadBack := by
  unfold Obligations.StoredBytesReadBack
  exact fun s a bs => ⟨fun j => s.byteAt_storeBytes_inside a, s.onlyBytes_storeBytes a bs,
    s.wf_storeBytes a bs⟩

theorem State.storeBytes_pc (s : State) (a : Nat) (bs : List Byte) : (s.storeBytes a bs).pc = s.pc := by
  rw [State.storeBytes_eq]

/-- Settles O13: the fetched word is its two bytes, which read back as stored. -/
theorem fetchReadsTheLastStoredBytes : Obligations.FetchReadsTheLastStoredBytes := by
  unfold Obligations.FetchReadsTheLastStoredBytes
  refine fun s => ⟨fetchWord_toNat s, fun b0 b1 => ?_⟩
  have hfirst := s.byteAt_storeBytes_inside s.pc.toNat (bs := [b0, b1]) (j := 0) (by simp)
  have hsecond := s.byteAt_storeBytes_inside s.pc.toNat (bs := [b0, b1]) (j := 1) (by simp)
  rw [Nat.add_zero] at hfirst
  rw [fetchWord_toNat, State.storeBytes_pc, hfirst, hsecond]
  rfl

/-! ### The decimal store (R183) -/

theorem exec_storeBCDOfXInI_written (hx : Written s x) (hi : s.unwritten.index = false) :
    exec (.storeBCDOfXInI x) s =
      inBounds s.index 3 s (.next (s.storeBytes s.index.toNat (bcdDigits (s.getV x)))) := by
  rw [exec, execStoreBCDOfXInI, readV_written hx, readIndex_written hi]

theorem bcdDigit_toNat {n : Nat} (h : n < 256) : (BitVec.ofNat 8 n).toNat = n := by
  rw [BitVec.toNat_ofNat, Nat.mod_eq_of_lt h]

/-- Settles O46: in bounds the three digits read back as stored; past the end the check faults. -/
theorem bcdStoresThreeDigits : Obligations.BcdStoresThreeDigits := by
  unfold Obligations.BcdStoresThreeDigits
  refine fun x s hx hi => ⟨fun hin => ?_, fun hout => ?_⟩
  · refine ⟨_, (exec_storeBCDOfXInI_written hx hi).trans (inBounds_true hin _), ?_, ?_, ?_,
      s.onlyBytes_storeBytes s.index.toNat (bcdDigits (s.getV x))⟩
    · have hdigit := s.byteAt_storeBytes_inside s.index.toNat (bs := bcdDigits (s.getV x)) (j := 0)
        (by simp [bcdDigits])
      rw [Nat.add_zero] at hdigit
      rw [hdigit]
      exact bcdDigit_toNat (by omega)
    · rw [s.byteAt_storeBytes_inside s.index.toNat (j := 1) (by simp [bcdDigits])]
      exact bcdDigit_toNat (by omega)
    · rw [s.byteAt_storeBytes_inside s.index.toNat (j := 2) (by simp [bcdDigits])]
      exact bcdDigit_toNat (by omega)
  · rw [Faults, exec_storeBCDOfXInI_written hx hi, inBounds_false hout, raise]

/-! ### The register transfers (R184, R185) -/

theorem State.length_take_v (s : State) (x : Nibble) : (s.v.toList.take x.toNat).length = x.toNat := by
  rw [List.length_take, Vector.length_toList]
  omega

/-- The store writes V0..V(X-1) at I on. -/
theorem State.byteAt_store_take_v (s : State) (a : Nat) {r : Nibble} (h : r < x) :
    (s.storeBytes a (s.v.toList.take x.toNat)).byteAt (a + r.toNat) = s.getV r := by
  have hlt : r.toNat < (s.v.toList.take x.toNat).length := by
    rw [State.length_take_v]
    exact BitVec.lt_def.mp h
  rw [s.byteAt_storeBytes_inside a hlt]
  simp [State.getV]

theorem exec_store0ToXInI_written (hx : x ≠ 0) (hi : s.unwritten.index = false)
    (hv : ∀ r : Nibble, r < x → Written s r) :
    exec (.store0ToXInI x) s =
      inBounds s.index x.toNat s (.next (s.storeBytes s.index.toNat (s.v.toList.take x.toNat))) := by
  rw [exec_store0ToXInI_of_ne hx, readIndex_written hi,
    readFirstVs_written fun r hr => hv r (BitVec.lt_def.mpr hr)]

/-- Settles O47: a count of 0 returns at once; above it, in bounds the bytes read back as stored, and past
the end the check faults. -/
theorem storeRegistersExclusive : Obligations.StoreRegistersExclusive := by
  unfold Obligations.StoreRegistersExclusive
  refine fun x s => ⟨fun hx => if_pos hx, fun hx hi hv => ⟨fun hin => ?_, fun hout => ?_⟩⟩
  · have honly := s.onlyBytes_storeBytes s.index.toNat (s.v.toList.take x.toNat)
    rw [State.length_take_v] at honly
    exact ⟨_, (exec_store0ToXInI_written hx hi hv).trans (inBounds_true hin _),
      fun r => s.byteAt_store_take_v s.index.toNat, honly⟩
  · rw [Faults, exec_store0ToXInI_written hx hi hv, inBounds_false hout, raise]

theorem State.holds_fillFirstVs (s : State) {n : Nat} (f : Nat → Byte) {r : Nibble} (h : r.toNat < n) :
    Holds (s.fillFirstVs n f) r (f r.toNat) := by
  rw [Holds, Written, State.getV_fillFirstVs, State.vUnwritten_fillFirstVs, if_pos h, if_pos h]
  exact ⟨rfl, rfl⟩

theorem State.fillFirstVs_above (s : State) {n : Nat} (f : Nat → Byte) {r : Nibble} (h : n ≤ r.toNat) :
    (s.fillFirstVs n f).getV r = s.getV r ∧ (s.fillFirstVs n f).vUnwritten r = s.vUnwritten r := by
  rw [State.getV_fillFirstVs, State.vUnwritten_fillFirstVs, if_neg (Nat.not_lt.mpr h),
    if_neg (Nat.not_lt.mpr h)]
  exact ⟨rfl, rfl⟩

/-- Filling registers changes the V registers and their marks, and nothing else. -/
theorem State.fillFirstVs_eq (s : State) (n : Nat) (f : Nat → Byte) :
    s.fillFirstVs n f = { s with
      v := (s.fillFirstVs n f).v
      unwritten := { s.unwritten with v := (s.fillFirstVs n f).unwritten.v } } := by
  simp only [State.fillFirstVs]

theorem State.onlyV_fillFirstVs (s : State) (x : Nibble) (f : Nat → Byte) :
    OnlyV (writtenVs (.fill0ToXWithValueInAddrI x)) s (s.fillFirstVs x.toNat f) :=
  ⟨s.fillFirstVs_eq _ _, fun _ hr => s.fillFirstVs_above f (Nat.not_lt.mp (mt mem_writtenVs_fill.mpr hr)),
    sameBytes_of_mem rfl rfl⟩

theorem exec_fill0ToXWithValueInAddrI_written (hx : x ≠ 0) (hi : s.unwritten.index = false) :
    exec (.fill0ToXWithValueInAddrI x) s = inBounds s.index x.toNat s
      (.next (s.fillFirstVs x.toNat fun j => s.byteAt (s.index.toNat + j))) := by
  rw [exec_fill0ToXWithValueInAddrI_of_ne hx, readIndex_written hi]

/-- Settles O48: a count of 0 returns at once; above it, in bounds the registers below the count are filled,
and past the end the check faults. -/
theorem loadRegistersExclusive : Obligations.LoadRegistersExclusive := by
  unfold Obligations.LoadRegistersExclusive
  refine fun x s => ⟨fun hx => if_pos hx, fun hx hi => ⟨fun hin => ?_, fun hout => ?_⟩⟩
  · exact ⟨_, (exec_fill0ToXWithValueInAddrI_written hx hi).trans (inBounds_true hin _),
      fun r hr => s.holds_fillFirstVs _ (BitVec.lt_def.mp hr), s.onlyV_fillFirstVs x _,
      fun r hr => s.fillFirstVs_above _ (BitVec.le_def.mp hr)⟩
  · rw [Faults, exec_fill0ToXWithValueInAddrI_written hx hi, inBounds_false hout, raise]

/-- Settles O49: the load's registers are the bytes at the same addresses, which are the stored registers. -/
theorem loadAfterStoreRestoresRegisters : Obligations.LoadAfterStoreRestoresRegisters := by
  unfold Obligations.LoadAfterStoreRestoresRegisters
  intro x s t u r hstore hmem hcfg hindex hload v hv
  have hx : x ≠ 0 := by rintro rfl; exact absurd hv (by simp)
  obtain ⟨h0, -⟩ | ⟨-, -, -, rfl⟩ := execStore0ToXInI_next hstore
  · exact absurd h0 hx
  obtain ⟨h0, -⟩ | ⟨-, -, rfl⟩ := execFill0ToXWithValueInAddrI_next hload
  · exact absurd h0 hx
  have hsame : u.index = s.index := by rw [hindex, State.storeBytes_eq]
  calc
    _ = u.byteAt (u.index.toNat + v.toNat) := (u.holds_fillFirstVs _ (BitVec.lt_def.mp hv)).1
    _ = (s.storeBytes s.index.toNat (s.v.toList.take x.toNat)).byteAt (s.index.toNat + v.toNat) := by
      rw [hsame, State.byteAt_congr hmem hcfg]
    _ = s.getV v := s.byteAt_store_take_v s.index.toNat hv

end Sys2Proof.Machine
end

section
/-! SUPPORT. Construction and load: the launch state, and the ROM in place (spec/70_reset_and_hazards.md R270
to R272, spec/20_memory.md R56). -/

namespace Sys2Proof.Machine

open Sys2Proof.Safety

variable {s : State}

/-! ### `new` (R270) -/

/-- The state that `new` gives for a configuration it accepts. -/
def launchState (cfg : Config) (d : Framebuffer) (keys : Vector Bool 16) (image : List Host.Cell) : State :=
  { State.reset with
    mem := launchMemory cfg image
    fb := d
    keys := keys
    unwritten := { v := Vector.replicate 16 true, index := true, dt := true, st := true }
    boot := .awaitingLoad
    cfg := cfg }

section
variable {cfg : Config} {d : Framebuffer} (keys : Vector Bool 16) (image : List Host.Cell)

theorem newCore_accepted (hc : cfg.wf = true) (hd : d.fits cfg = true) :
    newCore cfg d keys image = .next (launchState cfg d keys image) :=
  if_pos (by rw [hc, hd]; rfl)

theorem newCore_refused (h : cfg.wf = false ∨ d.fits cfg = false) :
    newCore cfg d keys image = .refused .badConfiguration :=
  if_neg (by obtain h | h := h <;> simp [h])

theorem launchState_inv (hc : cfg.wf = true) (hd : d.fits cfg = true) :
    Inv (launchState cfg d keys image) :=
  ⟨hc, launchMemory_wf cfg image, Nat.zero_le _, hd, iff_of_false nofun nofun, .inl rfl, rfl⟩

theorem launchState_vUnwritten (x : Nibble) : (launchState cfg d keys image).vUnwritten x = true := by
  simp [State.vUnwritten, launchState]

theorem launchState_byteAt (a : Nat) :
    (launchState cfg d keys image).byteAt a = (launchMemory cfg image).read cfg.font a := rfl

end

theorem launchByte_font (font : Font) {a : Nat} (h : a < 80) : launchByte font a = font[a] := dif_pos h

theorem launchByte_other (font : Font) {a : Nat} (h : 80 ≤ a) : launchByte font a = 0 :=
  dif_neg (Nat.not_lt.mpr h)

/-- Settles O58: `new` gives `launchState`, whose memory reads by the laws of `launchMemory`: the font, the
last pair of the image, or what construction leaves. -/
theorem newCoreIsTheLaunchState : Obligations.NewCoreIsTheLaunchState := by
  unfold Obligations.NewCoreIsTheLaunchState
  refine fun cfg d keys image => ⟨fun hc hd => ?_, newCore_refused keys image⟩
  refine ⟨_, newCore_accepted keys image hc hd, launchState_inv keys image hc hd, rfl, rfl, rfl, rfl, rfl,
    rfl, rfl, rfl, launchState_vUnwritten keys image, rfl, rfl, rfl, fun a ha => ?_,
    fun before a b after himage hafter ha hin => ?_, fun a ha hnone => ?_⟩
  · rw [launchState_byteAt, launchMemory_font cfg image ha, launchByte_font cfg.font ha]
  · rw [launchState_byteAt, himage, launchMemory_last cfg before after b hafter ha hin]
  · rw [launchState_byteAt, launchMemory_other cfg image fun c hc _ => hnone c hc,
      launchByte_other cfg.font ha]

/-! ### `load` (R271, R272) -/

theorem loadRom_awaiting (h : s.boot = .awaitingLoad) (rom : List Byte) :
    loadRom rom s = .next { s.storeBytes 0x200 (romPart s.cfg rom) with boot := .loaded } := by
  rw [loadRom, h]

theorem loadFailure_awaiting (h : s.boot = .awaitingLoad) :
    loadFailure s = .next { s.storeBytes 0x200 (romPart s.cfg (Config.freeLoad s.draws)) with
      boot := .loadFailed, draws := s.draws + 1 } := by
  rw [loadFailure, h]

theorem load_refused (h : s.boot ≠ .awaitingLoad) (rom : List Byte) :
    loadRom rom s = .refused .loadNotAdmitted ∧ loadFailure s = .refused .loadNotAdmitted := by
  unfold loadRom loadFailure
  cases hb : s.boot with
  | awaitingLoad => exact absurd hb h
  | loaded | loadFailed | ticked => exact ⟨rfl, rfl⟩

/-- The bytes of the ROM up to the end of memory are in place from 0x200 on (R56). -/
theorem byteAt_load_inside (s : State) {rom : List Byte} {j : Nat} (h : j < rom.length)
    (hin : 0x200 + j < s.cfg.memSize) :
    (s.storeBytes 0x200 (romPart s.cfg rom)).byteAt (0x200 + j) = rom[j] := by
  have hlt : j < (romPart s.cfg rom).length := by
    rw [romPart, List.length_take]
    omega
  rw [s.byteAt_storeBytes_inside 0x200 hlt]
  exact List.getElem_take

/-- The boot phase and the counter that a load sets show in no byte. -/
theorem byteAt_load (s : State) (bs : List Byte) (boot : BootPhase) (d a : Nat) :
    State.byteAt { s.storeBytes 0x200 bs with boot := boot, draws := d } a = (s.storeBytes 0x200 bs).byteAt a :=
  State.byteAt_congr (s := s.storeBytes 0x200 bs) rfl rfl a

theorem byteAt_load_outside (s : State) (hc : s.cfg.wf = true) {rom : List Byte} {a : Nat}
    (h : a < 0x200 ∨ 0x200 + rom.length ≤ a ∨ s.cfg.memSize ≤ a) :
    (s.storeBytes 0x200 (romPart s.cfg rom)).byteAt a = s.byteAt a := by
  have hend := romPart_le hc rom
  have hlen : (romPart s.cfg rom).length ≤ rom.length := List.length_take_le' ..
  exact s.byteAt_storeBytes_outside (by omega)

/-- Settles O59: the one load stores what fits of the ROM (`byteAt_load_inside`, `byteAt_load_outside`); a
failed one stores free bytes and leaves a phase that refuses every tick; later ones are refused. -/
theorem loadCopiesTheRom : Obligations.LoadCopiesTheRom := by
  unfold Obligations.LoadCopiesTheRom
  refine fun s rom hc => ⟨fun hb => ?_, fun hb => ?_, fun hb => load_refused hb rom⟩
  · refine ⟨_, loadRom_awaiting hb rom, ?_, fun j hj hin => ?_, fun a ha => ?_⟩
    · rw [State.storeBytes_eq]
    · rw [byteAt_load, byteAt_load_inside s hj hin]
    · rw [byteAt_load, byteAt_load_outside s hc ha]
  · refine ⟨_, loadFailure_awaiting hb, ?_, fun a ha => ?_, fun k => ⟨_, tick_of_refusal rfl k⟩⟩
    · rw [State.storeBytes_eq]
    · rw [byteAt_load, byteAt_load_outside s hc (.inl ha)]

end Sys2Proof.Machine
end

section
/-! SUPPORT. The draw: where a sprite's set bits land, what they do to each pixel and to VF, and that the same
draw again undoes it (spec/45_draw.md R200 to R204). -/

namespace Sys2Proof.Machine

open Sys2Proof.Safety

variable {s t : State} {x y n : Nibble}

/-! ### The handler by its count (R200) -/

theorem exec_drawSpriteInXY_zero (hx : Written s x) (hy : Written s y) :
    exec (.drawSpriteInXY x y 0) s = .next (s.setV regVF 0) := by
  rw [exec, execDrawSpriteInXY, readXY_written hx hy]
  rfl

theorem exec_drawSpriteInXY_written (hx : Written s x) (hy : Written s y) (hn : n ≠ 0)
    (hi : s.unwritten.index = false) :
    exec (.drawSpriteInXY x y n) s =
      inBounds s.index n.toNat s (.next (s.afterDraw x y n s.index.toNat)) := by
  rw [exec_drawSpriteInXY_of_ne hx hy hn, readIndex_written hi]

/-- Settles O52: the check of the bounds is the last thing before the draw. -/
theorem drawPastMemoryFaults : Obligations.DrawPastMemoryFaults := by
  unfold Obligations.DrawPastMemoryFaults
  intro x y n s hx hy hi hn hout
  rw [Faults, exec_drawSpriteInXY_written hx hy hn hi, inBounds_false hout, raise]

/-! ### The pixels of a sprite in memory (R201, R202) -/

theorem State.length_bytesAt (s : State) (a k : Nat) : (s.bytesAt a k).length = k := by
  simp [State.bytesAt]

theorem State.getD_bytesAt (s : State) (a : Nat) {k r : Nat} (h : r < k) :
    (s.bytesAt a k).getD r 0 = s.byteAt (a + r) := by
  simp [State.bytesAt, h]

/-- The targets of the sprite at an address, counted as the spec counts its set bits. -/
theorem spriteTargets_bytesAt_count (s : State) (w h vx vy a k px py : Nat) :
    (spriteTargets w h vx vy 0 (s.bytesAt a k)).count (px, py) =
      spriteHits w h vx vy (fun r => s.byteAt (a + r)) k px py := by
  rw [spriteTargets_count, State.length_bytesAt, spriteHits, spriteHits]
  congr 1
  refine List.map_congr_left fun r hr => ?_
  rw [s.getD_bytesAt a (List.mem_range.mp hr)]

/-- A pixel that no target names does not collide, so a collision is at a target. -/
theorem mem_of_pixelCollides {p : Pixel} {l : List (Nat × Nat)} {q : Nat × Nat}
    (h : pixelCollides p (l.count q)) : q ∈ l := by
  refine List.count_pos_iff.mp ?_
  obtain ⟨-, h⟩ | h := h <;> omega

/-- The collision flag of a list of pixels inside the display (R203). -/
theorem togglePixels_flag {cfg : Config} {fb : Framebuffer} {l : List (Nat × Nat)} (hf : fb.fits cfg = true)
    (hl : ∀ p ∈ l, p.1 < cfg.dispW ∧ p.2 < cfg.dispH) : (togglePixels fb l).2 = true ↔
      ∃ px py, px < cfg.dispW ∧ py < cfg.dispH ∧ pixelCollides (fb.get px py) (l.count (px, py)) := by
  rw [togglePixels, foldl_togglePixel_flag l (fb, false) hf hl]
  constructor
  · rintro (hfalse | ⟨⟨px, py⟩, hp, hc⟩)
    · cases hfalse
    · exact ⟨px, py, (hl _ hp).1, (hl _ hp).2, hc⟩
  · rintro ⟨px, py, -, -, hc⟩
    exact .inr ⟨(px, py), mem_of_pixelCollides hc, hc⟩

/-- A sprite wraps, so all its pixels are inside the display (R201). -/
theorem spriteTargets_inside_display (hs : Inv s) (vx vy r : Nat) (rows : List Byte) :
    ∀ p ∈ spriteTargets s.cfg.dispW s.cfg.dispH vx vy r rows, p.1 < s.cfg.dispW ∧ p.2 < s.cfg.dispH := by
  obtain ⟨-, -, hw, hh⟩ := (Config.wf_iff s.cfg).mp hs.1
  exact spriteTargets_inside hw hh vx vy r rows

/-! ### The state after a draw -/

theorem State.onlyFbVF_afterDraw (s : State) (x y n : Nibble) (a : Nat) : OnlyFbVF s (s.afterDraw x y n a) := by
  refine ⟨rfl, fun r hr => ?_, sameBytes_of_mem rfl rfl⟩
  rw [State.afterDraw, State.getV_setV, State.vUnwritten_setV, if_neg hr, if_neg hr]
  exact ⟨rfl, rfl⟩

theorem State.afterDraw_fits (x y n : Nibble) (a : Nat) (hf : s.fb.fits s.cfg = true) :
    (s.afterDraw x y n a).fb.fits s.cfg = true :=
  togglePixels_fits hf _

theorem State.afterDraw_get (hs : Inv s) (x y n : Nibble) (a px py : Nat) :
    (s.afterDraw x y n a).fb.get px py = pixelAfter (s.fb.get px py)
      (spriteHits s.cfg.dispW s.cfg.dispH (s.getV x).toNat (s.getV y).toNat
        (fun r => s.byteAt (a + r)) n.toNat px py) := by
  obtain ⟨-, -, -, hf, -⟩ := id hs
  rw [← spriteTargets_bytesAt_count]
  exact foldl_togglePixel_get _ (s.fb, false) hf (spriteTargets_inside_display hs _ _ _ _) px py

theorem flagByte_eq_one_iff {b : Bool} : flagByte b = 1 ↔ b = true := by cases b <;> simp [flagByte]

theorem State.afterDraw_getV_regVF (hs : Inv s) (x y n : Nibble) (a : Nat) :
    (s.afterDraw x y n a).getV regVF = 1 ↔ ∃ px py, px < s.cfg.dispW ∧ py < s.cfg.dispH ∧
      pixelCollides (s.fb.get px py) (spriteHits s.cfg.dispW s.cfg.dispH (s.getV x).toNat
        (s.getV y).toNat (fun r => s.byteAt (a + r)) n.toNat px py) := by
  obtain ⟨-, -, -, hf, -⟩ := id hs
  simp only [← spriteTargets_bytesAt_count]
  rw [State.afterDraw, State.getV_setV_self, flagByte_eq_one_iff]
  exact togglePixels_flag hf (spriteTargets_inside_display hs _ _ _ _)

/-- Settles O51: with no rows VF alone is written; with rows the state is `afterDraw`, whose pixels and flag
are those of toggling the sprite's targets in turn. -/
theorem drawXorsTheSprite : Obligations.DrawXorsTheSprite := by
  unfold Obligations.DrawXorsTheSprite
  refine fun x y n s hs hx hy => ⟨fun hn => ?_, fun hn hi hin => ?_⟩
  · subst hn
    exact ⟨_, exec_drawSpriteInXY_zero hx hy, s.onlyV_setV regVF 0, s.holds_setV regVF 0⟩
  · obtain ⟨-, -, -, hf, -⟩ := id hs
    exact ⟨_, (exec_drawSpriteInXY_written hx hy hn hi).trans (inBounds_true hin _),
      s.onlyFbVF_afterDraw x y n _, State.afterDraw_fits x y n _ hf,
      fun px py _ _ => State.afterDraw_get hs x y n _ px py, State.holds_flagByte _ _,
      State.afterDraw_getV_regVF hs x y n _⟩

/-! ### Drawing twice -/

theorem pixelAfter_twice (p : Pixel) (k : Nat) : pixelAfter (pixelAfter p k) k = p := by
  have heven : (k + k) % 2 = 0 := by omega
  rw [pixelAfter_add]
  cases p <;> simp [pixelAfter, heven]

/-- XOR is its own inverse, pixel by pixel. -/
theorem togglePixels_twice {cfg : Config} {fb : Framebuffer} {l : List (Nat × Nat)} (hf : fb.fits cfg = true)
    (hl : ∀ p ∈ l, p.1 < cfg.dispW ∧ p.2 < cfg.dispH) :
    (togglePixels (togglePixels fb l).1 l).1 = fb := by
  have hf' := togglePixels_fits hf l
  refine Framebuffer.ext_get (togglePixels_fits hf' l) hf fun px py _ _ => ?_
  calc
    _ = pixelAfter ((togglePixels fb l).1.get px py) (l.count (px, py)) :=
      foldl_togglePixel_get l (_, false) hf' hl px py
    _ = pixelAfter (pixelAfter (fb.get px py) (l.count (px, py))) (l.count (px, py)) := by
      rw [togglePixels, foldl_togglePixel_get l (fb, false) hf hl px py]
    _ = fb.get px py := pixelAfter_twice _ _

/-- The draw's flag goes to VF, so any other register keeps its value and its mark. -/
theorem State.afterDraw_register (s : State) {r : Nibble} (hr : r ≠ regVF) (x y n : Nibble) (a : Nat) :
    (s.afterDraw x y n a).getV r = s.getV r ∧ (s.afterDraw x y n a).vUnwritten r = s.vUnwritten r :=
  (s.onlyFbVF_afterDraw x y n a).2.1 r hr

/-- The second draw toggles the first one's pixels. -/
theorem State.afterDraw_twice_fb (hs : Inv s) (hx : x ≠ regVF) (hy : y ≠ regVF) (n : Nibble) (a : Nat) :
    ((s.afterDraw x y n a).afterDraw x y n a).fb = s.fb := by
  obtain ⟨-, -, -, hf, -⟩ := id hs
  have hvx := (s.afterDraw_register hx x y n a).1
  have hvy := (s.afterDraw_register hy x y n a).1
  rw [State.afterDraw, hvx, hvy]
  exact togglePixels_twice hf (spriteTargets_inside_display hs _ _ 0 _)

/-- Settles O53: the second draw finds VX, VY, I and the sprite as the first did, so it toggles the same
pixels. -/
theorem drawingTwiceRestoresTheScreen : Obligations.DrawingTwiceRestoresTheScreen := by
  unfold Obligations.DrawingTwiceRestoresTheScreen
  intro x y n s t hs hxF hyF h
  obtain ⟨hx, hy, hcase⟩ := execDrawSpriteInXY_next h
  by_cases hn : n = 0
  · subst hn
    rw [exec_drawSpriteInXY_zero hx hy] at h
    cases h
    have hx' : Written (s.setV regVF 0) x := by rwa [Written, State.vUnwritten_setV, if_neg hxF]
    have hy' : Written (s.setV regVF 0) y := by rwa [Written, State.vUnwritten_setV, if_neg hyF]
    exact ⟨_, exec_drawSpriteInXY_zero hx' hy', rfl⟩
  · obtain ⟨hi, hin, ht⟩ := hcase.resolve_left fun hzero => hn hzero.1
    obtain rfl : t = s.afterDraw x y n s.index.toNat := ht
    have hx' : Written (s.afterDraw x y n s.index.toNat) x := (s.afterDraw_register hxF x y n _).2.trans hx
    have hy' : Written (s.afterDraw x y n s.index.toNat) y := (s.afterDraw_register hyF x y n _).2.trans hy
    refine ⟨_, (exec_drawSpriteInXY_written hx' hy' hn hi).trans (inBounds_true ?_ _),
      State.afterDraw_twice_fb hs hxF hyF n _⟩
    exact hin

end Sys2Proof.Machine
end

section
/-! SUPPORT. The key wait, from its registration to the press, the release or the abandonment that follows
(spec/46_timers_keys.md R225 to R227). -/

namespace Sys2Proof.Machine

open Sys2Proof.Safety

variable {s : State} {x : Nibble}

/-- The state once a press has ended the wait of register x: the level stored, the key's code in VX, and the
run going on (R226). -/
def State.resumed (s : State) (x key : Nibble) : State :=
  { (s.setKeyLevel key true).setV x (key.setWidth 8) with wait := none, status := .running }

theorem deliverKey_press (key : Nibble) (h : s.wait = some x) : deliverKey key true s = s.resumed x key := by
  simp only [deliverKey, h, State.resumed]

variable {key : Nibble} {rest : List HostMove}

theorem step_release (h : s.script = .setKey key false :: rest) :
    step s = .next ({ s with script := rest }.setKeyLevel key false) :=
  step_of_script h

theorem step_press (h : s.script = .setKey key true :: rest) (hw : s.wait = some x) :
    step s = .next ({ s with script := rest }.resumed x key) := by
  rw [step_of_script h, hostMove, deliverKey_press key (s := { s with script := rest }) hw]

theorem step_abandonWait (h : s.script = .abandonWait :: rest) (hw : s.wait = some x) :
    step s = .next { s with script := rest }.abandoned := by
  rw [step_of_script h, hostMove]
  simp only [abandonWait, hw]

theorem State.keyLevel_resumed (s : State) (x key : Nibble) : (s.resumed x key).keyLevel key = true :=
  (s.keyLevel_setKeyLevel key key true).trans (if_pos rfl)

theorem State.holds_resumed (s : State) (x key : Nibble) : Holds (s.resumed x key) x (key.setWidth 8) :=
  (s.setKeyLevel key true).holds_setV x (key.setWidth 8)

theorem State.onlyV_resumed (s : State) (x key : Nibble) :
    OnlyV [x] { s with keys := (s.resumed x key).keys, wait := none, status := .running } (s.resumed x key) :=
  State.onlyV_setV { s with keys := (s.setKeyLevel key true).keys, wait := none, status := .running } x _

/-- Settles O55: the script's move is what the host does to the registered wait: a release stores its level, a
press leaves `resumed`, and giving up leaves `abandoned`. -/
theorem keyWaitEndsWithTheNextPress : Obligations.KeyWaitEndsWithTheNextPress := by
  unfold Obligations.KeyWaitEndsWithTheNextPress
  refine fun x key s => ⟨{ s with wait := some x, status := .waiting }, rfl, rfl, sameBytes_of_mem rfl rfl,
    fun rest => ⟨_, step_release rfl, rfl, ?_⟩,
    fun rest => ⟨_, step_press rfl rfl, rfl, rfl, State.keyLevel_resumed _ x key, rfl,
      State.holds_resumed _ x key, State.onlyV_resumed _ x key⟩,
    fun rest => step_abandonWait (rest := rest) rfl rfl⟩
  rw [State.keyLevel_setKeyLevel, if_pos rfl]

end Sys2Proof.Machine
end
